-- ==== Sys2Proof/Word.lean ====
section
/-! DEFINITION. The machine's word types (spec/00_scope.md R7, R9, R10): all values are unsigned bit vectors. -/

namespace Sys2Proof

/-- An 8-bit value: a general register, a timer, a byte of memory (spec/10_state.md R21, R36). -/
abbrev Byte := BitVec 8

/-- A 16-bit value: an instruction word, I, pc, a stack entry (spec/00_scope.md R7). -/
abbrev Word := BitVec 16

/-- The 12-bit address immediate `nnn` (spec/30_encoding.md R90). -/
abbrev Addr12 := BitVec 12

/-- A general register's number, 0..15, selecting V0..VF (spec/30_encoding.md R93). -/
abbrev Reg := Fin 16

/-- The count `n` of Dxyn, 0..15 (spec/30_encoding.md R92). -/
abbrev Count := Fin 16

/-- A logical key's number, 0x0..0xF (spec/45_keys_timers.md R260). -/
abbrev Key := Fin 16

end Sys2Proof
end

