-- ==== Sys2Proof/Syntax.lean ====
section
/-! DEFINITION. The instruction set: one constructor per row of spec/opcode_table.json (spec/30_encoding.md R98), with the
row's pattern, syntax and rule. -/

namespace Sys2Proof

/-- The base CHIP-8 instruction set, in the order of spec/30_encoding.md R98. -/
inductive Instr where
  /-- 00E0 CLS (spec/44_display.md R241) -/
  | cls
  /-- 00EE RET (spec/41_control_flow.md R150) -/
  | ret
  /-- 0nnn SYS nnn (spec/41_control_flow.md R151) -/
  | sys (nnn : Addr12)
  /-- 1nnn JP nnn (spec/41_control_flow.md R152) -/
  | jp (nnn : Addr12)
  /-- 2nnn CALL nnn (spec/41_control_flow.md R153) -/
  | call (nnn : Addr12)
  /-- 3xkk SE Vx, kk (spec/41_control_flow.md R154) -/
  | seImm (x : Reg) (kk : Byte)
  /-- 4xkk SNE Vx, kk (spec/41_control_flow.md R155) -/
  | sneImm (x : Reg) (kk : Byte)
  /-- 5xy0 SE Vx, Vy (spec/41_control_flow.md R156) -/
  | seReg (x y : Reg)
  /-- 6xkk LD Vx, kk (spec/42_register_alu.md R180) -/
  | ldImm (x : Reg) (kk : Byte)
  /-- 7xkk ADD Vx, kk (spec/42_register_alu.md R181) -/
  | addImm (x : Reg) (kk : Byte)
  /-- 8xy0 LD Vx, Vy (spec/42_register_alu.md R182) -/
  | ldReg (x y : Reg)
  /-- 8xy1 OR Vx, Vy (spec/42_register_alu.md R183) -/
  | orReg (x y : Reg)
  /-- 8xy2 AND Vx, Vy (spec/42_register_alu.md R184) -/
  | andReg (x y : Reg)
  /-- 8xy3 XOR Vx, Vy (spec/42_register_alu.md R185) -/
  | xorReg (x y : Reg)
  /-- 8xy4 ADD Vx, Vy (spec/42_register_alu.md R186) -/
  | addReg (x y : Reg)
  /-- 8xy5 SUB Vx, Vy (spec/42_register_alu.md R187) -/
  | subReg (x y : Reg)
  /-- 8xy6 SHR Vx, Vy (spec/42_register_alu.md R188) -/
  | shr (x y : Reg)
  /-- 8xy7 SUBN Vx, Vy (spec/42_register_alu.md R189) -/
  | subn (x y : Reg)
  /-- 8xyE SHL Vx, Vy (spec/42_register_alu.md R190) -/
  | shl (x y : Reg)
  /-- 9xy0 SNE Vx, Vy (spec/41_control_flow.md R157) -/
  | sneReg (x y : Reg)
  /-- Annn LD I, nnn (spec/43_address_memory.md R210) -/
  | ldI (nnn : Addr12)
  /-- Bnnn JP V0, nnn (spec/41_control_flow.md R158) -/
  | jpV0 (nnn : Addr12)
  /-- Cxkk RND Vx, kk (spec/42_register_alu.md R191) -/
  | rnd (x : Reg) (kk : Byte)
  /-- Dxyn DRW Vx, Vy, n (spec/44_display.md R242) -/
  | drw (x y : Reg) (n : Count)
  /-- Ex9E SKP Vx (spec/45_keys_timers.md R261) -/
  | skp (x : Reg)
  /-- ExA1 SKNP Vx (spec/45_keys_timers.md R262) -/
  | sknp (x : Reg)
  /-- Fx07 LD Vx, DT (spec/45_keys_timers.md R263) -/
  | ldVxDt (x : Reg)
  /-- Fx0A LD Vx, K (spec/45_keys_timers.md R266) -/
  | ldVxK (x : Reg)
  /-- Fx15 LD DT, Vx (spec/45_keys_timers.md R264) -/
  | ldDtVx (x : Reg)
  /-- Fx18 LD ST, Vx (spec/45_keys_timers.md R265) -/
  | ldStVx (x : Reg)
  /-- Fx1E ADD I, Vx (spec/43_address_memory.md R211) -/
  | addI (x : Reg)
  /-- Fx29 LD F, Vx (spec/43_address_memory.md R212) -/
  | ldF (x : Reg)
  /-- Fx33 LD B, Vx (spec/43_address_memory.md R213) -/
  | ldB (x : Reg)
  /-- Fx55 LD [I], Vx (spec/43_address_memory.md R214) -/
  | storeRegs (x : Reg)
  /-- Fx65 LD Vx, [I] (spec/43_address_memory.md R215) -/
  | loadRegs (x : Reg)
  deriving DecidableEq, Repr

end Sys2Proof
end

