-- ==== Sys2Proof/Decode.lean ====
section
/-! DEFINITION. Decoding and encoding (spec/30_encoding.md). Decoding is total: a word selects an instruction or is rejected by
the name of the line of R100 it falls under; the step runs a rejected word as a no-op (spec/40_engine.md R128). -/

namespace Sys2Proof

/-- Why a word is unassigned: the lines of spec/30_encoding.md R100. -/
inductive Unassigned where
  /-- 5xyN, N ≠ 0, under STRICT_DECODE = true -/
  | sel5
  /-- 8xyN, N ∈ {8, 9, A, B, C, D, F} -/
  | sel8
  /-- 9xyN, N ≠ 0, under STRICT_DECODE = true -/
  | sel9
  /-- ExKK, KK ∉ {9E, A1} -/
  | selE
  /-- FxKK, KK not one of the nine of the opcode map -/
  | selF
  deriving DecidableEq, Repr

/-- Why bytes give no instruction. -/
inductive DecodeError where
  /-- Fewer than the two bytes of an instruction (spec/30_encoding.md R103). -/
  | truncated
  /-- The word is unassigned. -/
  | unassigned (u : Unassigned)
  deriving DecidableEq, Repr

/-! ## Fields (spec/30_encoding.md R90) -/

/-- `op` = w[15:12]. -/
def opField (w : Word) : BitVec 4 := w.extractLsb' 12 4

/-- `x` = w[11:8]. -/
def xField (w : Word) : Reg := (w.extractLsb' 8 4).toFin

/-- `y` = w[7:4]. -/
def yField (w : Word) : Reg := (w.extractLsb' 4 4).toFin

/-- `n` = w[3:0]. -/
def nField (w : Word) : Count := (w.extractLsb' 0 4).toFin

/-- `kk` = w[7:0]. -/
def kkField (w : Word) : Byte := w.extractLsb' 0 8

/-- `nnn` = w[11:0]. -/
def nnnField (w : Word) : Addr12 := w.extractLsb' 0 12

/-! ## Decoding (spec/30_encoding.md R94 to R100) -/

/-- op = 0x0: the exact words 0x00E0 and 0x00EE take priority over 0nnn (R95). -/
def decode0 (w : Word) : Instr :=
  if w = 0x00E0#16 then .cls
  else if w = 0x00EE#16 then .ret
  else .sys (nnnField w)

/-- op = 0x8: the field n selects (R96). -/
def decode8 (w : Word) : Except Unassigned Instr :=
  let x := xField w
  let y := yField w
  match (nField w).val with
  | 0x0 => .ok (.ldReg x y)
  | 0x1 => .ok (.orReg x y)
  | 0x2 => .ok (.andReg x y)
  | 0x3 => .ok (.xorReg x y)
  | 0x4 => .ok (.addReg x y)
  | 0x5 => .ok (.subReg x y)
  | 0x6 => .ok (.shr x y)
  | 0x7 => .ok (.subn x y)
  | 0xE => .ok (.shl x y)
  | _   => .error .sel8

/-- op = 0xE: the field kk selects (R97). -/
def decodeE (w : Word) : Except Unassigned Instr :=
  match (kkField w).toNat with
  | 0x9E => .ok (.skp (xField w))
  | 0xA1 => .ok (.sknp (xField w))
  | _    => .error .selE

/-- op = 0xF: the field kk selects (R97, R98). -/
def decodeF (w : Word) : Except Unassigned Instr :=
  let x := xField w
  match (kkField w).toNat with
  | 0x07 => .ok (.ldVxDt x)
  | 0x0A => .ok (.ldVxK x)
  | 0x15 => .ok (.ldDtVx x)
  | 0x18 => .ok (.ldStVx x)
  | 0x1E => .ok (.addI x)
  | 0x29 => .ok (.ldF x)
  | 0x33 => .ok (.ldB x)
  | 0x55 => .ok (.storeRegs x)
  | 0x65 => .ok (.loadRegs x)
  | _    => .error .selF

/-- The instruction a word selects (R94). `strict` is STRICT_DECODE: when false, 5xyN and 9xyN are decoded as 5xy0 and 9xy0
whatever N is (R99). -/
def decode (strict : Bool) (w : Word) : Except Unassigned Instr :=
  match (opField w).toNat with
  | 0x0 => .ok (decode0 w)
  | 0x1 => .ok (.jp (nnnField w))
  | 0x2 => .ok (.call (nnnField w))
  | 0x3 => .ok (.seImm (xField w) (kkField w))
  | 0x4 => .ok (.sneImm (xField w) (kkField w))
  | 0x5 => if nField w = 0 ∨ strict = false then .ok (.seReg (xField w) (yField w)) else .error .sel5
  | 0x6 => .ok (.ldImm (xField w) (kkField w))
  | 0x7 => .ok (.addImm (xField w) (kkField w))
  | 0x8 => decode8 w
  | 0x9 => if nField w = 0 ∨ strict = false then .ok (.sneReg (xField w) (yField w)) else .error .sel9
  | 0xA => .ok (.ldI (nnnField w))
  | 0xB => .ok (.jpV0 (nnnField w))
  | 0xC => .ok (.rnd (xField w) (kkField w))
  | 0xD => .ok (.drw (xField w) (yField w) (nField w))
  | 0xE => decodeE w
  | _   => decodeF w

/-- The instruction word of two bytes, the byte at the lower address supplying bits 15:8 (spec/20_memory.md R62). -/
def wordOfBytes (hi lo : Byte) : Word := hi ++ lo

/-- The bytes of a word in memory order (spec/20_memory.md R62). -/
def bytesOfWord (w : Word) : List Byte := [w.extractLsb' 8 8, w.extractLsb' 0 8]

/-- The instruction at the head of a byte sequence, with the bytes after it. -/
def decodeBytes (strict : Bool) : List Byte → Except DecodeError (Instr × List Byte)
  | hi :: lo :: rest =>
    match decode strict (wordOfBytes hi lo) with
    | .ok i => .ok (i, rest)
    | .error u => .error (.unassigned u)
  | _ => .error .truncated

/-! ## Encoding (the formats of spec/30_encoding.md R91) -/

/-- A register number or a count as a 4-bit field. -/
def nibble (x : Fin 16) : BitVec 4 := BitVec.ofFin x

/-- NNN: `oooo nnnn nnnn nnnn`. -/
def fmtNNN (op : BitVec 4) (nnn : Addr12) : Word := op ++ nnn

/-- XKK and XS: `oooo xxxx kkkk kkkk`. -/
def fmtXKK (op : BitVec 4) (x : Reg) (kk : Byte) : Word := op ++ nibble x ++ kk

/-- XYS and XYN: `oooo xxxx yyyy nnnn`. -/
def fmtXYN (op : BitVec 4) (x y : Reg) (n : BitVec 4) : Word := op ++ nibble x ++ nibble y ++ n

/-- The word of an instruction (the match column of spec/30_encoding.md R98 with the operands in their fields). -/
def encode : Instr → Word
  | .cls         => 0x00E0#16
  | .ret         => 0x00EE#16
  | .sys nnn     => fmtNNN 0x0#4 nnn
  | .jp nnn      => fmtNNN 0x1#4 nnn
  | .call nnn    => fmtNNN 0x2#4 nnn
  | .seImm x kk  => fmtXKK 0x3#4 x kk
  | .sneImm x kk => fmtXKK 0x4#4 x kk
  | .seReg x y   => fmtXYN 0x5#4 x y 0x0#4
  | .ldImm x kk  => fmtXKK 0x6#4 x kk
  | .addImm x kk => fmtXKK 0x7#4 x kk
  | .ldReg x y   => fmtXYN 0x8#4 x y 0x0#4
  | .orReg x y   => fmtXYN 0x8#4 x y 0x1#4
  | .andReg x y  => fmtXYN 0x8#4 x y 0x2#4
  | .xorReg x y  => fmtXYN 0x8#4 x y 0x3#4
  | .addReg x y  => fmtXYN 0x8#4 x y 0x4#4
  | .subReg x y  => fmtXYN 0x8#4 x y 0x5#4
  | .shr x y     => fmtXYN 0x8#4 x y 0x6#4
  | .subn x y    => fmtXYN 0x8#4 x y 0x7#4
  | .shl x y     => fmtXYN 0x8#4 x y 0xE#4
  | .sneReg x y  => fmtXYN 0x9#4 x y 0x0#4
  | .ldI nnn     => fmtNNN 0xA#4 nnn
  | .jpV0 nnn    => fmtNNN 0xB#4 nnn
  | .rnd x kk    => fmtXKK 0xC#4 x kk
  | .drw x y n   => fmtXYN 0xD#4 x y (nibble n)
  | .skp x       => fmtXKK 0xE#4 x 0x9E#8
  | .sknp x      => fmtXKK 0xE#4 x 0xA1#8
  | .ldVxDt x    => fmtXKK 0xF#4 x 0x07#8
  | .ldVxK x     => fmtXKK 0xF#4 x 0x0A#8
  | .ldDtVx x    => fmtXKK 0xF#4 x 0x15#8
  | .ldStVx x    => fmtXKK 0xF#4 x 0x18#8
  | .addI x      => fmtXKK 0xF#4 x 0x1E#8
  | .ldF x       => fmtXKK 0xF#4 x 0x29#8
  | .ldB x       => fmtXKK 0xF#4 x 0x33#8
  | .storeRegs x => fmtXKK 0xF#4 x 0x55#8
  | .loadRegs x  => fmtXKK 0xF#4 x 0x65#8

/-- The bytes of an instruction in memory order. -/
def encodeBytes (i : Instr) : List Byte := bytesOfWord (encode i)

/-! ## The host's numbering of instruction bits -/

/-- The instruction word of bits `w` numbered as spec/opcode_table.json numbers them: bit 0 is the least significant bit of the
one word; every bit at or above `nbits` is 0. -/
def tableWord (nbits w : Nat) : Word := BitVec.ofNat 16 (w % 2 ^ nbits)

/-- What the decoder, under the default STRICT_DECODE = true (spec/00_scope.md R8), reads from an instruction of the opcode
table, laid out as the hardware stores it. -/
def decodeTableWord (nbits w : Nat) : Option Instr :=
  match decodeBytes true (bytesOfWord (tableWord nbits w)) with
  | .ok (i, _) => some i
  | .error _   => none

end Sys2Proof
end

