-- ==== Sys2Proof/Config.lean ====
section
/-! DEFINITION. What is fixed for the machine (spec/00_scope.md R7), the types of its open parameters (R8), and the
free values: the inputs a host supplies that State does not list. -/

namespace Sys2Proof

namespace Config

/-- MEM_SIZE: addresses 0..4095 (spec/00_scope.md R7). -/
def memSize : Nat := 4096

/-- PROG_BASE: the program load address and the reset pc (spec/00_scope.md R7). -/
def progBase : Nat := 0x200

/-- PROG_MAX: the longest program image, 4096 − 0x200 bytes (spec/00_scope.md R7). -/
def progMax : Nat := 3584

/-- FONT_GLYPHS: 16 glyphs of 5 bytes (spec/00_scope.md R7). -/
def fontBytes : Nat := 80

/-- FREE VALUE. The key snapshot of the n-th step whose inputs State does not list: any value, under no law
(spec/45_keys_timers.md R260; log 3). -/
opaque freeKeys : Nat → BitVec 16

/-- FREE VALUE. The random byte of the n-th step whose inputs State does not list: "a draw (any byte, under no law)"
(spec/42_register_alu.md R195; log 3). -/
opaque freeRnd : Nat → Byte

end Config

/-- UNDERFLOW_POLICY: what RET does on an empty stack (spec/41_control_flow.md R150). -/
inductive UnderflowPolicy where
  | fatal | sentinel
  deriving DecidableEq, Repr

/-- SHIFT_SOURCE: the register 8xy6 and 8xyE shift (spec/42_register_alu.md R188, R190). -/
inductive ShiftSource where
  | vx | vy
  deriving DecidableEq, Repr

/-- LDST_I_MODE: what Fx55 and Fx65 leave in I (spec/43_address_memory.md R214, R215). -/
inductive LdstIMode where
  | none | plusX | plusX1
  deriving DecidableEq, Repr

/-- KEY_RANGE_POLICY: a key number above 15 in Ex9E and ExA1 (spec/45_keys_timers.md R268). -/
inductive KeyRangePolicy where
  | fatal | notPressed | lowNibble
  deriving DecidableEq, Repr

/-- FONT_INDEX: how Fx29 takes the glyph's number from Vx (spec/43_address_memory.md R212). -/
inductive FontIndex where
  | full | lowNibble
  deriving DecidableEq, Repr

/-- KEYWAIT_RESUME_ADVANCE: what the completed key-wait adds to pc (spec/45_keys_timers.md R267). -/
inductive ResumeAdvance where
  | two | zero
  deriving DecidableEq, Repr

/-- SUB_EQ_FLAG: VF of 8xy5 and 8xy7 when the operands are equal (spec/42_register_alu.md R187, R189). -/
inductive SubEqFlag where
  | zero | one
  deriving DecidableEq, Repr

/-- The ten open parameters (spec/00_scope.md R8): "The model takes each as an argument". State carries them and no step
changes them (log 1). Every field's type holds the legal values and no other. -/
structure Params where
  /-- FONT_BASE, with FONT_BASE + 79 ≤ 0x1FF. -/
  fontBase       : Fin 433
  /-- FONT_TABLE, 80 bytes. -/
  fontTable      : Vector Byte 80
  underflow      : UnderflowPolicy
  shiftSource    : ShiftSource
  ldstIMode      : LdstIMode
  /-- STRICT_DECODE (spec/30_encoding.md R99). -/
  strictDecode   : Bool
  keyRange       : KeyRangePolicy
  fontIndex      : FontIndex
  resumeAdvance  : ResumeAdvance
  subEqFlag      : SubEqFlag
  deriving DecidableEq, Repr

end Sys2Proof
end

