-- ==== Sys2Proof/Machine/Params.lean ====
section
/-! DEFINITION. The defaults of the open parameters (spec/00_scope.md R8; log 1, log 2). -/

namespace Sys2Proof.Machine

/-- Glyphs 0..7 of the default FONT_TABLE (spec/10_state.md R41). PRESUMED: from general knowledge, the source gives no byte
(log 2). -/
def fontLow : List Byte :=
  [0xF0, 0x90, 0x90, 0x90, 0xF0] ++ [0x20, 0x60, 0x20, 0x20, 0x70] ++ [0xF0, 0x10, 0xF0, 0x80, 0xF0] ++
  [0xF0, 0x10, 0xF0, 0x10, 0xF0] ++ [0x90, 0x90, 0xF0, 0x10, 0x10] ++ [0xF0, 0x80, 0xF0, 0x10, 0xF0] ++
  [0xF0, 0x80, 0xF0, 0x90, 0xF0] ++ [0xF0, 0x10, 0x20, 0x40, 0x40]

/-- Glyphs 8..F of the default FONT_TABLE (spec/10_state.md R41). PRESUMED, as `fontLow` (log 2). -/
def fontHigh : List Byte :=
  [0xF0, 0x90, 0xF0, 0x90, 0xF0] ++ [0xF0, 0x90, 0xF0, 0x10, 0xF0] ++ [0xF0, 0x90, 0xF0, 0x90, 0x90] ++
  [0xE0, 0x90, 0xE0, 0x90, 0xE0] ++ [0xF0, 0x80, 0x80, 0x80, 0xF0] ++ [0xE0, 0x90, 0x90, 0x90, 0xE0] ++
  [0xF0, 0x80, 0xF0, 0x80, 0xF0] ++ [0xF0, 0x80, 0xF0, 0x80, 0x80]

/-- The default FONT_TABLE, 80 bytes, glyph g at 5g..5g+4 (spec/10_state.md R41). -/
def defaultFontTable : Vector Byte 80 := ⟨⟨fontLow ++ fontHigh⟩, rfl⟩

/-- Every parameter at its default (spec/00_scope.md R8). -/
def defaultParams : Params where
  fontBase      := 0x050
  fontTable     := defaultFontTable
  underflow     := .fatal
  shiftSource   := .vx
  ldstIMode     := .none
  strictDecode  := true
  keyRange      := .fatal
  fontIndex     := .full
  resumeAdvance := .two
  subEqFlag     := .zero

end Sys2Proof.Machine
end

