-- ==== Sys2Proof/Machine/State.lean ====
section
/-! DEFINITION. The machine's state (spec/10_state.md R20) with the model's own fields beside it (the open parameters and the
host's side of the interface), the reasons a step could stop, and the state right after reset (spec/10_state.md R44). -/

namespace Sys2Proof.Machine

/-- The 4096 bytes of memory (spec/20_memory.md R60) as (address, byte) cells in one canonical form, `Memory.wf`: addresses
strictly rising, none above 4095, and no cell equal to what an unlisted address reads as (log 10). -/
abbrev Memory := List Host.Cell

/-- The 32 rows of 64 one-bit pixels, row 0 at the top; a row is its 8 packed bytes, MSB first, so column 0 is its most
significant bit (spec/10_state.md R37). -/
abbrev Framebuffer := Vector (BitVec 64) 32

/-- `run_state` (spec/10_state.md R39). -/
inductive RunState where
  /-- steps fetch and execute -/
  | run
  /-- steps only poll the keys -/
  | waitKey
  /-- halted with an error; left by reset only -/
  | halted
  /-- construction failed; left by reset only -/
  | loadFailed
  deriving DecidableEq, Repr

/-- The error causes (spec/60_exceptions.md R280). -/
inductive ErrCause where
  /-- 0: no error -/
  | none
  /-- 1: the 17th nested call -/
  | stackOverflow
  /-- 2: RET on an empty stack under UNDERFLOW_POLICY = FATAL -/
  | stackUnderflow
  /-- 3: a memory access past 4095 -/
  | memBounds
  /-- 4: a key number above 15 under KEY_RANGE_POLICY = FATAL -/
  | keyRange
  /-- 5: a program image that is empty or too long -/
  | outOfSpace
  deriving DecidableEq, Repr

/-- What the host asks of the core (spec/60_exceptions.md R293). -/
inductive Request where
  /-- `step_req` with the key snapshot and the random byte of that step -/
  | step (keys : BitVec 16) (rnd : Byte)
  /-- `reset_req` with the program image -/
  | reset (image : List Byte)
  deriving DecidableEq, Repr

/-- The host's side of the interface, the MODEL's own and no architectural state (spec/10_state.md R46; log 3, log 4). -/
structure HostSide where
  /-- requests not yet served, oldest first -/
  requests : List Request
  /-- how many steps took free inputs because no request was listed -/
  draws    : Nat
  /-- the key snapshot of the step being served, sampled once at its start (spec/40_engine.md R134) -/
  keys     : BitVec 16
  /-- the random byte of the step being served -/
  rnd      : Byte
  deriving DecidableEq, Repr

/-- The state: the thirteen elements of spec/10_state.md R20, the open parameters and the host's side. -/
structure State where
  /-- `mem[0..4095]` -/
  mem      : Memory
  /-- `V[0..15]` -/
  v        : Vector Byte 16
  /-- `I` -/
  i        : Word
  /-- `pc` -/
  pc       : Word
  /-- `stack[0..15]` -/
  stack    : Vector Word 16
  /-- `SP`, 0..16: the number of valid entries -/
  sp       : Fin 17
  /-- `DT` -/
  dt       : Byte
  /-- `ST` -/
  st       : Byte
  /-- `FB[0..31][0..63]` -/
  fb       : Framebuffer
  /-- `run_state` -/
  runState : RunState
  /-- `kw_reg` -/
  kwReg    : Reg
  /-- `err_cause` -/
  errCause : ErrCause
  /-- `err_pc` -/
  errPc    : Word
  /-- the open parameters (spec/00_scope.md R8), which no step changes -/
  params   : Params
  /-- the host's requests and the inputs of the step being served -/
  host     : HostSide
  deriving DecidableEq, Repr

/-- No step stops the machine with a fault: every error of spec/60_exceptions.md R280 is TAKEN, as a next state with
`run_state` = HALTED (R281), and spec/40_engine.md R132 says that a step never blocks. So no constructor (log 8). -/
inductive Fault : Type
  deriving DecidableEq, Repr

/-- Why an instruction would be left without a meaning. -/
inductive Refusal where
  /-- Raised by `exec` alone, for an instruction that has no meaning yet; every instruction has one, so nothing raises it.
  Safe: it could only make a true claim unprovable. -/
  | notModelled (mnemonic : String)
  deriving DecidableEq, Repr

/-- What an instruction or a step answers. -/
abbrev Result := Host.Outcome State Fault Refusal

/-- Right after a successful reset (spec/10_state.md R44), with the default parameters and no image byte placed: the program
region reads 0x00 throughout, as a reset with the one-byte image 00 leaves it (log 5). -/
def State.reset : State where
  mem      := []
  v        := Vector.replicate 16 0x00#8
  i        := 0x0000#16
  pc       := 0x0200#16
  stack    := Vector.replicate 16 0x0000#16
  sp       := 0
  dt       := 0x00#8
  st       := 0x00#8
  fb       := Vector.replicate 32 0#64
  runState := .run
  kwReg    := 0
  errCause := .none
  errPc    := 0x0000#16
  params   := defaultParams
  host     := { requests := [], draws := 0, keys := 0#16, rnd := 0x00#8 }

end Sys2Proof.Machine
end

