-- ==== Sys2Proof/Machine/Ops.lean ====
section
/-! DEFINITION. The named operations over memory, registers, the call stack and the framebuffer (the primitives of
spec/00_scope.md R11), taking a fatal error (spec/60_exceptions.md R281), the tick (spec/40_engine.md R129) and reset, the one
way out of an error (spec/70_reset_and_hazards.md R310). -/

namespace Sys2Proof.Machine

/-! ## Memory (spec/20_memory.md) -/

/-- What an address that memory does not list reads as: the reset contents, FONT_TABLE at FONT_BASE..FONT_BASE+79 and 0x00
elsewhere (spec/10_state.md R44). -/
def blankByte (p : Params) (a : Nat) : Byte :=
  if h : p.fontBase.val ≤ a ∧ a - p.fontBase.val < 80 then p.fontTable[a - p.fontBase.val]'h.2 else 0x00#8

/-- The byte listed at an address. -/
def Memory.lookup (a : Nat) : Memory → Option Byte
  | [] => none
  | (a', b) :: m => if a' = a then some b else Memory.lookup a m

/-- The byte at an address. -/
def Memory.read (p : Params) (m : Memory) (a : Nat) : Byte := (m.lookup a).getD (blankByte p a)

/-- A cell in front of a list, or nothing. -/
def Memory.cons? (a : Nat) : Option Byte → Memory → Memory
  | none, m => m
  | some b, m => (a, b) :: m

/-- The listing at address `a` replaced: by the byte `b`, or by nothing. Addresses stay rising. -/
def Memory.put (a : Nat) (b : Option Byte) : Memory → Memory
  | [] => Memory.cons? a b []
  | (a', b') :: m =>
    if a < a' then Memory.cons? a b ((a', b') :: m)
    else if a = a' then Memory.cons? a b m
    else (a', b') :: Memory.put a b m

/-- A byte written: an address that then reads as an unlisted one is not listed. -/
def Memory.write (p : Params) (m : Memory) (a : Nat) (b : Byte) : Memory :=
  m.put a (if b = blankByte p a then none else some b)

/-- The canonical form: addresses strictly rising and at most 4095, no cell equal to what an unlisted address reads as. -/
abbrev Memory.wf (p : Params) (m : Memory) : Prop :=
  m.Pairwise (fun c d => c.1 < d.1) ∧ ∀ c ∈ m, c.1 < Config.memSize ∧ c.2 ≠ blankByte p c.1

/-- Bytes written one after the other from an address up. -/
def Memory.writeAll (p : Params) (m : Memory) (a : Nat) : List Byte → Memory
  | [] => m
  | b :: bs => Memory.writeAll p (m.write p a b) (a + 1) bs

/-- `CheckRange(a, n)` holds (spec/00_scope.md R11): with n ≥ 1, a + n − 1 ≤ 4095, exact integers (spec/20_memory.md R67). -/
def rangeOk (a n : Nat) : Bool := n == 0 || decide (a + n - 1 ≤ 4095)

/-- `MemRead(a, 1)`; an instruction reaches it only for a ≤ 4095, behind a range check (spec/20_memory.md R65; log 11). -/
def State.readByte (s : State) (a : Nat) : Byte := s.mem.read s.params a

/-- The n bytes at a..a+n−1, the whole range checked first (spec/20_memory.md R68); none where the check fails. -/
def State.loadRange (s : State) (a n : Nat) : Option (List Byte) :=
  if rangeOk a n then some ((List.range n).map fun k => s.readByte (a + k)) else none

/-- The bytes stored from address a up, the whole range checked first (spec/20_memory.md R68); none where the check fails. -/
def State.storeRange (s : State) (a : Nat) (bs : List Byte) : Option State :=
  if rangeOk a bs.length then some { s with mem := s.mem.writeAll s.params a bs } else none

/-! ## Registers (spec/10_state.md) -/

/-- `V[x]` (R21). -/
def State.reg (s : State) (x : Reg) : Byte := s.v[x.val]

/-- `V[x] <- b`. -/
def State.setReg (s : State) (x : Reg) (b : Byte) : State := { s with v := s.v.set x.val b }

/-- A result written to V[x] and then a flag to VF, the last write of the instruction (R23). -/
def State.setRegThenFlag (s : State) (x : Reg) (result flag : Byte) : State := (s.setReg x result).setReg 15 flag

/-- The registers V0..Vx (R24). -/
def State.regsUpTo (s : State) (x : Reg) : List Byte := s.v.toList.take (x.val + 1)

/-- V[k], V[k+1], ... written one after the other from a list of bytes; it is used from k = 0 with at most sixteen bytes. -/
def State.setRegsFrom (s : State) (k : Nat) : List Byte → State
  | [] => s
  | b :: bs => State.setRegsFrom (s.setReg (Fin.ofNat 16 k) b) (k + 1) bs

/-- `I <- w` (R30). -/
def State.setI (s : State) (w : Word) : State := { s with i := w }

/-- `pc <- w` (R26, R29). -/
def State.setPc (s : State) (w : Word) : State := { s with pc := w }

/-- A skip adds 2 to pc when its condition holds (R29, spec/41_control_flow.md R162). -/
def State.skipIf (s : State) (c : Bool) : State := if c then s.setPc (s.pc + 2#16) else s

/-- `DT <- b` (R36). -/
def State.setDt (s : State) (b : Byte) : State := { s with dt := b }

/-- `ST <- b` (R36). -/
def State.setSt (s : State) (b : Byte) : State := { s with st := b }

/-! ## Call stack (spec/10_state.md R31 to R35) -/

/-- `Push(w)` (R33); none on a full stack, with nothing written. -/
def State.push (s : State) (w : Word) : Option State :=
  if h : s.sp.val < 16 then
    some { s with stack := s.stack.set s.sp.val w, sp := ⟨s.sp.val + 1, Nat.succ_lt_succ h⟩ }
  else none

/-- `Pop()` (R34): the popped word and the state after; none is EMPTY. The popped entry keeps its value (R35; log 7). -/
def State.pop (s : State) : Option (Word × State) :=
  if h : 0 < s.sp.val then
    some (s.stack[s.sp.val - 1]'(by omega), { s with sp := ⟨s.sp.val - 1, by omega⟩ })
  else none

/-! ## Framebuffer (spec/10_state.md R37, spec/44_display.md) -/

/-- `FB[r][c]`: column 0 is a row's most significant bit. -/
def Framebuffer.pixel (fb : Framebuffer) (r : Fin 32) (c : Fin 64) : Bool := fb[r.val].getLsbD (63 - c.val)

/-- `FB[r][c] <- FB[r][c] ^ 1`. -/
def Framebuffer.flip (fb : Framebuffer) (r : Fin 32) (c : Fin 64) : Framebuffer :=
  fb.set r.val (fb[r.val] ^^^ BitVec.twoPow 64 (63 - c.val))

/-- The packed byte `fbbyte[k]`: row k div 8, columns 8*(k mod 8) to 8*(k mod 8) + 7, MSB first (R37). -/
def Framebuffer.packedByte (fb : Framebuffer) (k : Fin 256) : Byte :=
  (fb[k.val / 8]'(by omega)).extractLsb' (8 * (7 - k.val % 8)) 8

/-- Every pixel 0 (spec/44_display.md R241). -/
def Framebuffer.clear : Framebuffer := Vector.replicate 32 0#64

/-- A drawing in progress: the framebuffer and whether a pixel went from 1 to 0 (spec/44_display.md R242). -/
abbrev Drawing := Framebuffer × Bool

/-- One set sprite bit drawn at a pixel: collision if the pixel is 1, then the pixel flipped. -/
def Drawing.pixel (d : Drawing) (r : Fin 32) (c : Fin 64) : Drawing := (d.1.flip r c, d.2 || d.1.pixel r c)

/-- Bits `7 - j`, for j in `js`, of the sprite byte `b` drawn in row `row` from column `x0` (spec/44_display.md R242, R243),
columns wrapping modulo 64 (R244). -/
def Drawing.bits (d : Drawing) (x0 : Nat) (row : Fin 32) (b : Byte) : List Nat → Drawing
  | [] => d
  | j :: js =>
    Drawing.bits (if b.getLsbD (7 - j) then d.pixel row (Fin.ofNat 64 (x0 + j)) else d) x0 row b js

/-- The sprite's rows drawn from row `y0` down, rows wrapping modulo 32 (spec/44_display.md R242, R244). -/
def Drawing.rows (d : Drawing) (x0 y0 : Nat) : List Byte → Drawing
  | [] => d
  | b :: bs => Drawing.rows (d.bits x0 (Fin.ofNat 32 y0) b (List.range 8)) x0 (y0 + 1) bs

/-- The sprite drawn on the framebuffer: the new framebuffer and `collide` (spec/44_display.md R242). -/
def Framebuffer.draw (fb : Framebuffer) (x0 y0 : Nat) (sprite : List Byte) : Drawing :=
  Drawing.rows (fb, false) x0 y0 sprite

/-! ## Key-wait state (spec/45_keys_timers.md) -/

/-- Fx0A's two writes (R266). -/
def State.enterKeyWait (s : State) (x : Reg) : State := { s with kwReg := x, runState := .waitKey }

/-! ## Taking a fatal error, and the way out -/

/-- The error codes as numbers (spec/60_exceptions.md R280). -/
def ErrCause.code : ErrCause → BitVec 8
  | .none           => 0
  | .stackOverflow  => 1
  | .stackUnderflow => 2
  | .memBounds      => 3
  | .keyRange       => 4
  | .outOfSpace     => 5

/-- `raise Fatal(c)` in a step whose instruction is at address `a` (spec/60_exceptions.md R281): HALTED, the error record, and
nothing else. No handler is entered and nothing is saved besides (R285). -/
def State.raiseFatal (s : State) (c : ErrCause) (a : Word) : State :=
  { s with runState := .halted, errCause := c, errPc := a }

/-- The address of the instruction whose rule is running: its fetch left pc = a + 2 (spec/40_engine.md R125; log 9). -/
def State.insnAddr (s : State) : Word := s.pc - 2#16

/-- `raise Fatal(c)` by an instruction's rule. -/
def State.fatal (s : State) (c : ErrCause) : State := s.raiseFatal c s.insnAddr

/-- One timer's decrement, floored at 0 (spec/40_engine.md R129). -/
def tickTimer (t : Byte) : Byte := if t = 0#8 then t else t - 1#8

/-- The tick (spec/40_engine.md R129). -/
def State.tick (s : State) : State := { s with dt := tickTimer s.dt, st := tickTimer s.st }

/-- The elements zeroed, pc at 0x200, RUN, the error record clear, and the image's bytes placed from 0x200 up over memory
that lists nothing, which reads as the font table and zeros (spec/70_reset_and_hazards.md R310, R311). The parameters and the
host's side stay. -/
def State.load (s : State) (image : List Byte) : State where
  mem      := Memory.writeAll s.params [] Config.progBase image
  v        := Vector.replicate 16 0x00#8
  i        := 0x0000#16
  pc       := BitVec.ofNat 16 Config.progBase
  stack    := Vector.replicate 16 0x0000#16
  sp       := 0
  dt       := 0x00#8
  st       := 0x00#8
  fb       := Framebuffer.clear
  runState := .run
  kwReg    := 0
  errCause := .none
  errPc    := 0x0000#16
  params   := s.params
  host     := s.host

/-- `LoadFail()` (spec/70_reset_and_hazards.md R312). Every other element keeps its value, which R312 allows (log 6). -/
def State.loadFail (s : State) : State :=
  { s with runState := .loadFailed, errCause := .outOfSpace, errPc := 0x0000#16 }

/-- `Reset(image, len)`, in any run_state (spec/70_reset_and_hazards.md R310, R312, R313). It is the only way out of HALTED and
LOAD_FAILED (spec/60_exceptions.md R286). -/
def State.resetWith (s : State) (image : List Byte) : State :=
  if image.length = 0 ∨ Config.progMax < image.length then s.loadFail else s.load image

end Sys2Proof.Machine
end

