-- ==== Sys2Proof/Machine/Flags.lean ====
section
/-! DEFINITION. The 8-bit results and the VF flags of the ALU, each computed exactly on integers and narrowed at the end
(spec/42_register_alu.md R192, R193). -/

namespace Sys2Proof.Machine

/-- A flag as VF holds it: 1 or 0. -/
def flagByte (b : Bool) : Byte := if b then 0x01#8 else 0x00#8

/-- (a + b) mod 256 (spec/42_register_alu.md R181, R186). -/
def sumByte (a b : Byte) : Byte := BitVec.ofNat 8 (a.toNat + b.toNat)

/-- The carry of 8xy4: the exact sum exceeds 255 (spec/42_register_alu.md R186). -/
def carry (a b : Byte) : Bool := decide (255 < a.toNat + b.toNat)

/-- (a − b) mod 256 of the exact difference (spec/42_register_alu.md R187, R189). -/
def diffByte (a b : Byte) : Byte := BitVec.ofInt 8 ((a.toNat : Int) - (b.toNat : Int))

/-- The not-borrow flag of a − b: a > b, or a ≥ b under SUB_EQ_FLAG = 1 (spec/42_register_alu.md R187, R189). -/
def notBorrow (p : Params) (a b : Byte) : Bool :=
  match p.subEqFlag with
  | .zero => decide (b.toNat < a.toNat)
  | .one  => decide (b.toNat ≤ a.toNat)

/-- s >> 1 (spec/42_register_alu.md R188). -/
def shrByte (b : Byte) : Byte := BitVec.ofNat 8 (b.toNat / 2)

/-- s & 1, the bit shifted out to the right (spec/42_register_alu.md R188). -/
def lsb (b : Byte) : Bool := b.getLsbD 0

/-- (s << 1) mod 256 (spec/42_register_alu.md R190). -/
def shlByte (b : Byte) : Byte := BitVec.ofNat 8 (b.toNat * 2)

/-- (s >> 7) & 1, the bit shifted out to the left (spec/42_register_alu.md R190). -/
def msb (b : Byte) : Bool := b.getLsbD 7

end Sys2Proof.Machine
end

