-- ==== Sys2Proof/Machine/Operands.lean ====
section
/-! DEFINITION. The operand forms (spec/30_encoding.md R93, spec/43_address_memory.md R216): register operands under a
parameter, key numbers, the key snapshot, addresses in I. -/

namespace Sys2Proof.Machine

/-- `zext_16(nnn)` (spec/30_encoding.md R92). -/
def addrWord (nnn : Addr12) : Word := nnn.setWidth 16

/-- The operand of 8xy6 and 8xyE: V[x], or V[y] under SHIFT_SOURCE = VY (spec/42_register_alu.md R188, R190). -/
def State.shiftOperand (s : State) (x y : Reg) : Byte :=
  match s.params.shiftSource with
  | .vx => s.reg x
  | .vy => s.reg y

/-- `Key(k)`: bit k of the step's snapshot (spec/45_keys_timers.md R260). -/
def State.key (s : State) (k : Key) : Bool := s.host.keys.getLsbD k.val

/-- `LowestKey()`: the least pressed key of a snapshot, or none (spec/45_keys_timers.md R260). -/
def lowestKey (keys : BitVec 16) : Option Key := (List.finRange 16).find? fun k => keys.getLsbD k.val

/-- What a key number selects. -/
inductive KeySel where
  /-- a key number above 15 that is a fatal error -/
  | outOfRange
  /-- a key number above 15 that names no key, so counts as not pressed -/
  | noKey
  /-- a logical key -/
  | key (k : Key)
  deriving DecidableEq, Repr

/-- The key the number V[x] selects, above 15 by KEY_RANGE_POLICY (spec/45_keys_timers.md R261, R268). -/
def State.keySel (s : State) (x : Reg) : KeySel :=
  let k := s.reg x
  if h : k.toNat < 16 then .key ⟨k.toNat, h⟩
  else
    match s.params.keyRange with
    | .fatal      => .outOfRange
    | .notPressed => .noKey
    | .lowNibble  => .key (Fin.ofNat 16 k.toNat)

/-- The glyph's number: V[x], or its low nibble under FONT_INDEX = LOW_NIBBLE (spec/43_address_memory.md R212). -/
def State.glyph (s : State) (x : Reg) : Nat :=
  match s.params.fontIndex with
  | .full      => (s.reg x).toNat
  | .lowNibble => (s.reg x).toNat % 16

/-- What Fx55 and Fx65 leave in I, by LDST_I_MODE (spec/43_address_memory.md R214, R215). -/
def State.ldstNextI (s : State) (x : Reg) : Word :=
  match s.params.ldstIMode with
  | .none   => s.i
  | .plusX  => BitVec.ofNat 16 (s.i.toNat + x.val)
  | .plusX1 => BitVec.ofNat 16 (s.i.toNat + x.val + 1)

/-- The decimal digits of a byte: hundreds, tens, ones (spec/43_address_memory.md R213). -/
def bcdDigits (b : Byte) : List Byte :=
  [BitVec.ofNat 8 (b.toNat / 100), BitVec.ofNat 8 (b.toNat / 10 % 10), BitVec.ofNat 8 (b.toNat % 10)]

end Sys2Proof.Machine
end

