-- ==== Sys2Proof/Machine/AddressMemory.lean ====
section
/-! DEFINITION. The address register and memory access (spec/43_address_memory.md). A range that passes 4095 is a fatal error
taken before any write (spec/20_memory.md R68). -/

namespace Sys2Proof.Machine

/-- Annn LD I, nnn (spec/43_address_memory.md R210). -/
def execLdI (nnn : Addr12) (s : State) : Result := .next (s.setI (addrWord nnn))

/-- Fx1E ADD I, Vx: modulo 2^16, no flag (spec/43_address_memory.md R211). -/
def execAddI (x : Reg) (s : State) : Result := .next (s.setI (BitVec.ofNat 16 (s.i.toNat + (s.reg x).toNat)))

/-- Fx29 LD F, Vx: FONT_BASE + 5 * g modulo 2^16 (spec/43_address_memory.md R212). -/
def execLdF (x : Reg) (s : State) : Result :=
  .next (s.setI (BitVec.ofNat 16 (s.params.fontBase.val + 5 * s.glyph x)))

/-- Fx33 LD B, Vx: the decimal digits at I..I+2 (spec/43_address_memory.md R213). -/
def execLdB (x : Reg) (s : State) : Result :=
  match s.storeRange s.i.toNat (bcdDigits (s.reg x)) with
  | some t => .next t
  | none   => .next (s.fatal .memBounds)

/-- Fx55 LD [I], Vx: V0..Vx at I..I+x, then I by LDST_I_MODE (spec/43_address_memory.md R214). -/
def execStoreRegs (x : Reg) (s : State) : Result :=
  match s.storeRange s.i.toNat (s.regsUpTo x) with
  | some t => .next (t.setI (s.ldstNextI x))
  | none   => .next (s.fatal .memBounds)

/-- Fx65 LD Vx, [I]: V0..Vx from I..I+x, then I by LDST_I_MODE (spec/43_address_memory.md R215). -/
def execLoadRegs (x : Reg) (s : State) : Result :=
  match s.loadRange s.i.toNat (x.val + 1) with
  | some bs => .next ((s.setRegsFrom 0 bs).setI (s.ldstNextI x))
  | none    => .next (s.fatal .memBounds)

end Sys2Proof.Machine
end

