-- ==== Sys2Proof/Machine/ControlFlow.lean ====
section
/-! DEFINITION. Control flow (spec/41_control_flow.md). Each meaning runs after the fetch has advanced pc, so `s.pc` is the
address of the next sequential instruction (spec/40_engine.md R125). -/

namespace Sys2Proof.Machine

/-- 00EE RET (spec/41_control_flow.md R150). -/
def execRet (s : State) : Result :=
  match s.pop with
  | some (r, t) => .next (t.setPc r)
  | none =>
    match s.params.underflow with
    | .fatal    => .next (s.fatal .stackUnderflow)
    | .sentinel => .next (s.setPc 0x0000#16)

/-- 0nnn SYS nnn: no operation (spec/41_control_flow.md R151). -/
def execSys (_ : Addr12) (s : State) : Result := .next s

/-- 1nnn JP nnn (spec/41_control_flow.md R152). -/
def execJp (nnn : Addr12) (s : State) : Result := .next (s.setPc (addrWord nnn))

/-- 2nnn CALL nnn: the return address pushed is the advanced pc (spec/41_control_flow.md R153). -/
def execCall (nnn : Addr12) (s : State) : Result :=
  match s.push s.pc with
  | some t => .next (t.setPc (addrWord nnn))
  | none   => .next (s.fatal .stackOverflow)

/-- 3xkk SE Vx, kk (spec/41_control_flow.md R154). -/
def execSeImm (x : Reg) (kk : Byte) (s : State) : Result := .next (s.skipIf (s.reg x == kk))

/-- 4xkk SNE Vx, kk (spec/41_control_flow.md R155). -/
def execSneImm (x : Reg) (kk : Byte) (s : State) : Result := .next (s.skipIf (s.reg x != kk))

/-- 5xy0 SE Vx, Vy (spec/41_control_flow.md R156). -/
def execSeReg (x y : Reg) (s : State) : Result := .next (s.skipIf (s.reg x == s.reg y))

/-- 9xy0 SNE Vx, Vy (spec/41_control_flow.md R157). -/
def execSneReg (x y : Reg) (s : State) : Result := .next (s.skipIf (s.reg x != s.reg y))

/-- Bnnn JP V0, nnn: always V0 (spec/41_control_flow.md R158). -/
def execJpV0 (nnn : Addr12) (s : State) : Result :=
  .next (s.setPc (BitVec.ofNat 16 (nnn.toNat + (s.reg 0).toNat)))

end Sys2Proof.Machine
end

