-- ==== Sys2Proof/Machine/Display.lean ====
section
/-! DEFINITION. The framebuffer controller's instructions (spec/44_display.md). -/

namespace Sys2Proof.Machine

/-- 00E0 CLS: VF not written (spec/44_display.md R241). -/
def execCls (s : State) : Result := .next { s with fb := Framebuffer.clear }

/-- Dxyn DRW Vx, Vy, n: coordinates read first, the range checked before any pixel, VF last (spec/44_display.md R242). -/
def execDrw (x y : Reg) (n : Count) (s : State) : Result :=
  match s.loadRange s.i.toNat n.val with
  | some sprite =>
    let d := s.fb.draw (s.reg x).toNat (s.reg y).toNat sprite
    .next (State.setReg { s with fb := d.1 } 15 (flagByte d.2))
  | none => .next (s.fatal .memBounds)

end Sys2Proof.Machine
end

