-- ==== Sys2Proof/Machine/KeysTimers.lean ====
section
/-! DEFINITION. Keys, timers and the key-wait state machine (spec/45_keys_timers.md). -/

namespace Sys2Proof.Machine

/-- Ex9E SKP Vx (spec/45_keys_timers.md R261). -/
def execSkp (x : Reg) (s : State) : Result :=
  match s.keySel x with
  | .outOfRange => .next (s.fatal .keyRange)
  | .noKey      => .next s
  | .key k      => .next (s.skipIf (s.key k))

/-- ExA1 SKNP Vx (spec/45_keys_timers.md R262). -/
def execSknp (x : Reg) (s : State) : Result :=
  match s.keySel x with
  | .outOfRange => .next (s.fatal .keyRange)
  | .noKey      => .next (s.skipIf true)
  | .key k      => .next (s.skipIf (!s.key k))

/-- Fx07 LD Vx, DT: DT before this step's tick (spec/45_keys_timers.md R263). -/
def execLdVxDt (x : Reg) (s : State) : Result := .next (s.setReg x s.dt)

/-- Fx0A LD Vx, K: enter the key-wait; V[x] is written by the completing poll (spec/45_keys_timers.md R266). -/
def execLdVxK (x : Reg) (s : State) : Result := .next (s.enterKeyWait x)

/-- Fx15 LD DT, Vx; the step's tick follows (spec/45_keys_timers.md R264). -/
def execLdDtVx (x : Reg) (s : State) : Result := .next (s.setDt (s.reg x))

/-- Fx18 LD ST, Vx; the step's tick follows (spec/45_keys_timers.md R265). -/
def execLdStVx (x : Reg) (s : State) : Result := .next (s.setSt (s.reg x))

/-- What the completed key-wait adds to pc (spec/45_keys_timers.md R267). -/
def ResumeAdvance.amount : ResumeAdvance → Word
  | .two  => 2#16
  | .zero => 0#16

/-- The key-wait poll, the whole of a step that begins in WAIT_KEY (spec/45_keys_timers.md R267). -/
def State.keyWaitPoll (s : State) : State :=
  match lowestKey s.host.keys with
  | none   => s
  | some k =>
    { s.setReg s.kwReg (BitVec.ofNat 8 k.val) with
      runState := .run, pc := s.pc + ResumeAdvance.amount s.params.resumeAdvance }

end Sys2Proof.Machine
end

