-- ==== Sys2Proof/Machine/RegisterAlu.lean ====
section
/-! DEFINITION. Register loads and the ALU (spec/42_register_alu.md). Every operand is read before the first write and the flag
is the last write (R194). -/

namespace Sys2Proof.Machine

/-- 6xkk LD Vx, kk (spec/42_register_alu.md R180). -/
def execLdImm (x : Reg) (kk : Byte) (s : State) : Result := .next (s.setReg x kk)

/-- 7xkk ADD Vx, kk: no flag (spec/42_register_alu.md R181). -/
def execAddImm (x : Reg) (kk : Byte) (s : State) : Result := .next (s.setReg x (sumByte (s.reg x) kk))

/-- 8xy0 LD Vx, Vy (spec/42_register_alu.md R182). -/
def execLdReg (x y : Reg) (s : State) : Result := .next (s.setReg x (s.reg y))

/-- 8xy1 OR Vx, Vy: VF not written as a flag (spec/42_register_alu.md R183). -/
def execOrReg (x y : Reg) (s : State) : Result := .next (s.setReg x (s.reg x ||| s.reg y))

/-- 8xy2 AND Vx, Vy (spec/42_register_alu.md R184). -/
def execAndReg (x y : Reg) (s : State) : Result := .next (s.setReg x (s.reg x &&& s.reg y))

/-- 8xy3 XOR Vx, Vy (spec/42_register_alu.md R185). -/
def execXorReg (x y : Reg) (s : State) : Result := .next (s.setReg x (s.reg x ^^^ s.reg y))

/-- 8xy4 ADD Vx, Vy: carry into VF (spec/42_register_alu.md R186). -/
def execAddReg (x y : Reg) (s : State) : Result :=
  .next (s.setRegThenFlag x (sumByte (s.reg x) (s.reg y)) (flagByte (carry (s.reg x) (s.reg y))))

/-- 8xy5 SUB Vx, Vy: not-borrow into VF (spec/42_register_alu.md R187). -/
def execSubReg (x y : Reg) (s : State) : Result :=
  .next (s.setRegThenFlag x (diffByte (s.reg x) (s.reg y)) (flagByte (notBorrow s.params (s.reg x) (s.reg y))))

/-- 8xy6 SHR Vx, Vy: the bit shifted out into VF (spec/42_register_alu.md R188). -/
def execShr (x y : Reg) (s : State) : Result :=
  .next (s.setRegThenFlag x (shrByte (s.shiftOperand x y)) (flagByte (lsb (s.shiftOperand x y))))

/-- 8xy7 SUBN Vx, Vy: V[y] − V[x], not-borrow into VF (spec/42_register_alu.md R189). -/
def execSubn (x y : Reg) (s : State) : Result :=
  .next (s.setRegThenFlag x (diffByte (s.reg y) (s.reg x)) (flagByte (notBorrow s.params (s.reg y) (s.reg x))))

/-- 8xyE SHL Vx, Vy: the bit shifted out into VF (spec/42_register_alu.md R190). -/
def execShl (x y : Reg) (s : State) : Result :=
  .next (s.setRegThenFlag x (shlByte (s.shiftOperand x y)) (flagByte (msb (s.shiftOperand x y))))

/-- Cxkk RND Vx, kk: the step's random byte masked (spec/42_register_alu.md R191, R195). -/
def execRnd (x : Reg) (kk : Byte) (s : State) : Result := .next (s.setReg x (s.host.rnd &&& kk))

end Sys2Proof.Machine
end

