-- ==== Sys2Proof/Machine/Engine.lean ====
section
/-! DEFINITION. The step engine (spec/40_engine.md): fetch, decode, dispatch, tick, the key-wait poll, and serving one request
of the host (spec/60_exceptions.md R293). -/

namespace Sys2Proof.Machine

/-- The instruction word at an address, big-endian (spec/40_engine.md R124). -/
def State.wordAt (s : State) (a : Nat) : Word := wordOfBytes (s.readByte a) (s.readByte (a + 1))

/-- The end of an executing step: the tick, unless the instruction raised a fatal error (spec/40_engine.md R127, R129). A step
runs an instruction only in RUN, so HALTED here is the instruction's own error. -/
def State.endStep (s : State) : State := if s.runState = .halted then s else s.tick

/-- An answer with the end of the step done. -/
def Result.endStep : Result → Result
  | .next s    => .next s.endStep
  | .fault r   => .fault r
  | .refused r => .refused r

/-- A word decoded under STRICT_DECODE and run; an unassigned word is a no-op (spec/40_engine.md R126 to R128). -/
def runWord (w : Word) (s : State) : Result :=
  match decode s.params.strictDecode w with
  | .ok i    => exec i s
  | .error _ => .next s

/-- A step that begins in RUN (spec/40_engine.md R123 to R129, R131). -/
def executingStep (s : State) : Result :=
  if 4095 < s.pc.toNat + 1 then .next (s.raiseFatal .memBounds s.pc)
  else Result.endStep (runWord (s.wordAt s.pc.toNat) (s.setPc (s.pc + 2#16)))

/-- The step of spec/40_engine.md R131, its inputs already sampled into `host.keys` and `host.rnd`. -/
def performStep (s : State) : Result :=
  match s.runState with
  | .run        => executingStep s
  | .waitKey    => .next s.keyWaitPoll
  | .halted     => .next s
  | .loadFailed => .next s

/-- The request served next, with the host's side after it: the oldest listed; where none is listed, a step request with free
inputs (log 3). -/
def HostSide.nextRequest (h : HostSide) : Request × HostSide :=
  match h.requests with
  | r :: rest => (r, { h with requests := rest })
  | []        => (.step (Config.freeKeys h.draws) (Config.freeRnd h.draws), { h with draws := h.draws + 1 })

/-- The inputs of a step sampled, once, at its start (spec/40_engine.md R134). -/
def State.sample (s : State) (h : HostSide) (keys : BitVec 16) (rnd : Byte) : State :=
  { s with host := { h with keys := keys, rnd := rnd } }

/-- One request served completely (spec/60_exceptions.md R293): the core changes state only by steps and by reset
(spec/40_engine.md R120; log 4). -/
def serve (s : State) : Result :=
  match s.host.nextRequest with
  | (.step keys rnd, h) => performStep (s.sample h keys rnd)
  | (.reset image, h)   => .next (State.resetWith { s with host := h } image)

/-- Whether a request is a reset. -/
def Request.isReset : Request → Bool
  | .step _ _ => false
  | .reset _  => true

/-- A state whose next step fetches at its pc: RUN, pc + 1 ≤ 4095, no reset request before the next step request. A state
that already fetches is unchanged (log 5). -/
def State.readyToFetch (s : State) : State :=
  { s with
    runState := .run
    pc       := if 4095 < s.pc.toNat + 1 then BitVec.ofNat 16 Config.progBase else s.pc
    host     := { s.host with requests := s.host.requests.dropWhile Request.isReset } }

/-- A word's bytes stored at pc and pc + 1 of a state that fetches there. -/
def State.placeAtPc (s : State) (w : Word) : State :=
  let t := s.readyToFetch
  { t with mem := t.mem.writeAll t.params t.pc.toNat (bytesOfWord w) }

end Sys2Proof.Machine
end

