-- ==== Sys2Proof/Machine/Ports.lean ====
section
/-! DEFINITION. The outputs of the core, read by the host and the Renderer between steps (spec/60_exceptions.md R293). -/

namespace Sys2Proof.Machine

/-- `status`: 0 = RUN, 1 = WAIT_KEY, 2 = HALTED, 3 = LOAD_FAILED. -/
def RunState.status : RunState → BitVec 2
  | .run        => 0
  | .waitKey    => 1
  | .halted     => 2
  | .loadFailed => 3

/-- The port `status`. -/
def State.statusOut (s : State) : BitVec 2 := s.runState.status

/-- The port `err_cause`. -/
def State.errCauseOut (s : State) : BitVec 8 := s.errCause.code

/-- The port `err_pc`. -/
def State.errPcOut (s : State) : Word := s.errPc

/-- The port `pc_out`. -/
def State.pcOut (s : State) : Word := s.pc

/-- The port `st_out` (spec/60_exceptions.md R292). -/
def State.stOut (s : State) : Byte := s.st

/-- The port `fb_data` for `fb_addr` = k: the packed framebuffer byte `fbbyte[k]` (spec/10_state.md R37). -/
def State.fbData (s : State) (k : Fin 256) : Byte := s.fb.packedByte k

end Sys2Proof.Machine
end

