-- ==== Sys2Proof/Machine/Step.lean ====
section
/-! DEFINITION. One step of the machine, and the host's way to place an instruction under it. -/

namespace Sys2Proof.Machine

/-- One request of the host served (spec/40_engine.md R120, R131). -/
def step (s : State) : Host.Outcome State Fault Refusal := serve s

/-- The instruction word of bits `w`, numbered as spec/opcode_table.json numbers them, stored where the next step fetches it
(log 5). -/
def State.withFetchWord (s : State) (nbits w : Nat) : State := s.placeAtPc (tableWord nbits w)

end Sys2Proof.Machine
end

