-- ==== Sys2Proof/Safety.lean ====
section
/-! DEFINITION. The terms in which claims are stated: what a frame leaves unchanged, the invariant of the machine, and what
counts as a safe run. -/

namespace Sys2Proof.Machine

/-- The elements of the architectural state (spec/10_state.md R20). -/
inductive Element where
  | mem | v | i | pc | stack | sp | dt | st | fb | runState | kwReg | errCause | errPc
  deriving DecidableEq, Repr

/-- One element holds the same in two states: memory by the byte every address reads as, the registers one by one. -/
def Element.Same (s t : State) : Element → Prop
  | .mem      => ∀ a : Nat, t.readByte a = s.readByte a
  | .v        => ∀ r : Reg, t.reg r = s.reg r
  | .i        => t.i = s.i
  | .pc       => t.pc = s.pc
  | .stack    => t.stack = s.stack
  | .sp       => t.sp = s.sp
  | .dt       => t.dt = s.dt
  | .st       => t.st = s.st
  | .fb       => t.fb = s.fb
  | .runState => t.runState = s.runState
  | .kwReg    => t.kwReg = s.kwReg
  | .errCause => t.errCause = s.errCause
  | .errPc    => t.errPc = s.errPc

/-- THE FRAME: from s to t every element but those named is unchanged, and so are the parameters and the host's side. -/
def UnchangedExcept (changed : List Element) (s t : State) : Prop :=
  t.params = s.params ∧ t.host = s.host ∧ ∀ e : Element, e ∉ changed → e.Same s t

/-- Every register but those named is unchanged. -/
def RegsExcept (changed : List Reg) (s t : State) : Prop := ∀ r : Reg, r ∉ changed → t.reg r = s.reg r

/-- Every byte of memory outside the n bytes from address a up reads as before. -/
def BytesOutside (a n : Nat) (s t : State) : Prop := ∀ b : Nat, b < a ∨ a + n ≤ b → t.readByte b = s.readByte b

/-- `t` is the state a fatal error with cause `c` leaves from `s`, where `s` is past the fetch of the instruction at
`s.pc − 2` (spec/60_exceptions.md R281): HALTED, the cause, the instruction's address, and nothing else changed. -/
def HaltedBy (c : ErrCause) (s t : State) : Prop :=
  UnchangedExcept [.runState, .errCause, .errPc] s t ∧ t.runState = .halted ∧ t.errCause = c ∧ t.errPc = s.pc - 2#16

/-- The error record agrees with run_state (spec/10_state.md R40, spec/60_exceptions.md R280). -/
def State.ErrorRecordOk (s : State) : Prop :=
  match s.runState with
  | .run        => s.errCause = .none ∧ s.errPc = 0x0000#16
  | .waitKey    => s.errCause = .none ∧ s.errPc = 0x0000#16
  | .halted     => s.errCause ≠ .none ∧ s.errCause ≠ .outOfSpace
  | .loadFailed => s.errCause = .outOfSpace ∧ s.errPc = 0x0000#16

/-- THE INVARIANT: memory is in its canonical form, and the error record agrees with run_state. -/
def State.Inv (s : State) : Prop := Memory.wf s.params s.mem ∧ s.ErrorRecordOk

/-- The fatal error an instruction raises in a state, by its condition (spec/60_exceptions.md R280 and the instructions' rules;
spec/70_reset_and_hazards.md R325). -/
def errorOf (i : Instr) (s : State) : Option ErrCause :=
  match i with
  | .ret => if s.sp.val = 0 ∧ s.params.underflow = .fatal then some .stackUnderflow else none
  | .call _ => if s.sp.val = 16 then some .stackOverflow else none
  | .drw _ _ n => if 1 ≤ n.val ∧ 4095 < s.i.toNat + n.val - 1 then some .memBounds else none
  | .ldB _ => if 4095 < s.i.toNat + 2 then some .memBounds else none
  | .storeRegs x | .loadRegs x => if 4095 < s.i.toNat + x.val then some .memBounds else none
  | .skp x | .sknp x => if 15 < (s.reg x).toNat ∧ s.params.keyRange = .fatal then some .keyRange else none
  | .cls | .sys _ | .jp _ | .seImm _ _ | .sneImm _ _ | .seReg _ _ | .ldImm _ _ | .addImm _ _ | .ldReg _ _ | .orReg _ _
  | .andReg _ _ | .xorReg _ _ | .addReg _ _ | .subReg _ _ | .shr _ _ | .subn _ _ | .shl _ _ | .sneReg _ _ | .ldI _ | .jpV0 _
  | .rnd _ _ | .ldVxDt _ | .ldVxK _ | .ldDtVx _ | .ldStVx _ | .addI _ | .ldF _ => none

/-- The general registers an instruction's own rule may write (the last column of spec/10_state.md R25). -/
def destRegs : Instr → List Reg
  | .ldImm x _ | .addImm x _ | .ldReg x _ | .orReg x _ | .andReg x _ | .xorReg x _ | .rnd x _ | .ldVxDt x => [x]
  | .addReg x _ | .subReg x _ | .shr x _ | .subn x _ | .shl x _ => [x, 15]
  | .drw _ _ _ => [15]
  | .loadRegs x => (List.finRange 16).filter (· ≤ x)
  | .cls | .ret | .sys _ | .jp _ | .call _ | .seImm _ _ | .sneImm _ _ | .seReg _ _ | .sneReg _ _ | .ldI _ | .jpV0 _ | .skp _
  | .sknp _ | .ldVxK _ | .ldDtVx _ | .ldStVx _ | .addI _ | .ldF _ | .ldB _ | .storeRegs _ => []

/-- The elements an instruction's own rule may write when it raises no error (the instructions' rules; I in Fx55 and Fx65 under
LDST_I_MODE). -/
def mayWrite : Instr → List Element
  | .cls => [.fb]
  | .ret => [.pc, .sp]
  | .call _ => [.pc, .sp, .stack]
  | .sys _ => []
  | .jp _ | .jpV0 _ | .seImm _ _ | .sneImm _ _ | .seReg _ _ | .sneReg _ _ | .skp _ | .sknp _ => [.pc]
  | .ldImm _ _ | .addImm _ _ | .ldReg _ _ | .orReg _ _ | .andReg _ _ | .xorReg _ _ | .addReg _ _ | .subReg _ _ | .shr _ _
  | .subn _ _ | .shl _ _ | .rnd _ _ | .ldVxDt _ => [.v]
  | .ldI _ | .addI _ | .ldF _ => [.i]
  | .ldB _ => [.mem]
  | .storeRegs _ => [.mem, .i]
  | .loadRegs _ => [.v, .i]
  | .drw _ _ _ => [.fb, .v]
  | .ldVxK _ => [.kwReg, .runState]
  | .ldDtVx _ => [.dt]
  | .ldStVx _ => [.st]

/-- Dxyn in state `s` has a set sprite bit for pixel (r, c): bit 7 − j of sprite row k lands there, rows wrapping modulo 32 and
columns modulo 64 (spec/44_display.md R242, R243, R244). -/
def Drawn (s : State) (x y : Reg) (n : Count) (r : Fin 32) (c : Fin 64) : Prop :=
  ∃ k j : Nat, k < n.val ∧ j < 8 ∧ r.val = ((s.reg y).toNat + k) % 32 ∧ c.val = ((s.reg x).toNat + j) % 64 ∧
    (s.readByte (s.i.toNat + k)).getLsbD (7 - j) = true

/-- The instructions that set VF as a flag (spec/10_state.md R22). -/
def setsFlag : Instr → Bool
  | .addReg _ _ | .subReg _ _ | .shr _ _ | .subn _ _ | .shl _ _ | .drw _ _ _ => true
  | .cls | .ret | .sys _ | .jp _ | .call _ | .seImm _ _ | .sneImm _ _ | .seReg _ _ | .ldImm _ _ | .addImm _ _ | .ldReg _ _
  | .orReg _ _ | .andReg _ _ | .xorReg _ _ | .sneReg _ _ | .ldI _ | .jpV0 _ | .rnd _ _ | .skp _ | .sknp _ | .ldVxDt _
  | .ldVxK _ | .ldDtVx _ | .ldStVx _ | .addI _ | .ldF _ | .ldB _ | .storeRegs _ | .loadRegs _ => false

/-- The host's next request at `s` is a step request, and `s0` is `s` with that step's inputs sampled. -/
def StepRequested (s s0 : State) : Prop :=
  ∃ keys rnd h, s.host.nextRequest = (.step keys rnd, h) ∧ s0 = s.sample h keys rnd

/-- The next step of `s` fetches the word `w`: RUN, and both bytes at pc within memory (spec/40_engine.md R123, R124). -/
def Fetches (s : State) (w : Word) : Prop :=
  s.runState = .run ∧ s.pc.toNat + 1 ≤ 4095 ∧ w = s.wordAt s.pc.toNat

/-- The least pressed key of a snapshot is `k` (spec/45_keys_timers.md R260). -/
def IsLowestKey (keys : BitVec 16) (k : Key) : Prop :=
  keys.getLsbD k.val = true ∧ ∀ j : Key, j < k → keys.getLsbD j.val = false

/-- A state from which the core still executes: no error and no failed load. -/
def State.Running (s : State) : Prop := s.runState = .run ∨ s.runState = .waitKey

end Sys2Proof.Machine
end

