-- ==== Sys2Proof/Safety/OpcodeMap.lean ====
section
/-! DEFINITION. The opcode map of spec/30_encoding.md R98, row by row, as its match and mask columns give it: the claims about
the decoder are stated against it. -/

namespace Sys2Proof

/-- A row of the opcode map: it selects w when w & mask = match. -/
structure OpcodeRow where
  pattern : Word
  mask    : Word
  make    : Word → Instr

/-- A word selects this row. -/
def OpcodeRow.selects (r : OpcodeRow) (w : Word) : Bool := w &&& r.mask == r.pattern

/-- Rows 1 to 20 (op = 0x0 to 0x9). -/
def opcodeRowsLow : List OpcodeRow :=
  [ ⟨0x00E0#16, 0xFFFF#16, fun _ => .cls⟩
  , ⟨0x00EE#16, 0xFFFF#16, fun _ => .ret⟩
  , ⟨0x0000#16, 0xF000#16, fun w => .sys (nnnField w)⟩
  , ⟨0x1000#16, 0xF000#16, fun w => .jp (nnnField w)⟩
  , ⟨0x2000#16, 0xF000#16, fun w => .call (nnnField w)⟩
  , ⟨0x3000#16, 0xF000#16, fun w => .seImm (xField w) (kkField w)⟩
  , ⟨0x4000#16, 0xF000#16, fun w => .sneImm (xField w) (kkField w)⟩
  , ⟨0x5000#16, 0xF00F#16, fun w => .seReg (xField w) (yField w)⟩
  , ⟨0x6000#16, 0xF000#16, fun w => .ldImm (xField w) (kkField w)⟩
  , ⟨0x7000#16, 0xF000#16, fun w => .addImm (xField w) (kkField w)⟩
  , ⟨0x8000#16, 0xF00F#16, fun w => .ldReg (xField w) (yField w)⟩
  , ⟨0x8001#16, 0xF00F#16, fun w => .orReg (xField w) (yField w)⟩
  , ⟨0x8002#16, 0xF00F#16, fun w => .andReg (xField w) (yField w)⟩
  , ⟨0x8003#16, 0xF00F#16, fun w => .xorReg (xField w) (yField w)⟩
  , ⟨0x8004#16, 0xF00F#16, fun w => .addReg (xField w) (yField w)⟩
  , ⟨0x8005#16, 0xF00F#16, fun w => .subReg (xField w) (yField w)⟩
  , ⟨0x8006#16, 0xF00F#16, fun w => .shr (xField w) (yField w)⟩
  , ⟨0x8007#16, 0xF00F#16, fun w => .subn (xField w) (yField w)⟩
  , ⟨0x800E#16, 0xF00F#16, fun w => .shl (xField w) (yField w)⟩
  , ⟨0x9000#16, 0xF00F#16, fun w => .sneReg (xField w) (yField w)⟩ ]

/-- Rows 21 to 35 (op = 0xA to 0xF). -/
def opcodeRowsHigh : List OpcodeRow :=
  [ ⟨0xA000#16, 0xF000#16, fun w => .ldI (nnnField w)⟩
  , ⟨0xB000#16, 0xF000#16, fun w => .jpV0 (nnnField w)⟩
  , ⟨0xC000#16, 0xF000#16, fun w => .rnd (xField w) (kkField w)⟩
  , ⟨0xD000#16, 0xF000#16, fun w => .drw (xField w) (yField w) (nField w)⟩
  , ⟨0xE09E#16, 0xF0FF#16, fun w => .skp (xField w)⟩
  , ⟨0xE0A1#16, 0xF0FF#16, fun w => .sknp (xField w)⟩
  , ⟨0xF007#16, 0xF0FF#16, fun w => .ldVxDt (xField w)⟩
  , ⟨0xF00A#16, 0xF0FF#16, fun w => .ldVxK (xField w)⟩
  , ⟨0xF015#16, 0xF0FF#16, fun w => .ldDtVx (xField w)⟩
  , ⟨0xF018#16, 0xF0FF#16, fun w => .ldStVx (xField w)⟩
  , ⟨0xF01E#16, 0xF0FF#16, fun w => .addI (xField w)⟩
  , ⟨0xF029#16, 0xF0FF#16, fun w => .ldF (xField w)⟩
  , ⟨0xF033#16, 0xF0FF#16, fun w => .ldB (xField w)⟩
  , ⟨0xF055#16, 0xF0FF#16, fun w => .storeRegs (xField w)⟩
  , ⟨0xF065#16, 0xF0FF#16, fun w => .loadRegs (xField w)⟩ ]

/-- The complete opcode map, rows tried top to bottom. -/
def opcodeMap : List OpcodeRow := opcodeRowsLow ++ opcodeRowsHigh

/-- The instruction of the first row that selects a word. -/
def opcodeLookup (w : Word) : Option Instr := (opcodeMap.find? (·.selects w)).map (·.make w)

end Sys2Proof
end

