-- ==== Sys2Proof/Certificates/Slice0/Obligations.lean ====
section
/-! DEFINITION. The statements for the provers. `exec i s` runs instruction i's rule on a state PAST THE FETCH: `s.pc` is the
address after the instruction, `s.pc − 2` the instruction's own (spec/40_engine.md R125). `UnchangedExcept`, `RegsExcept` and
`BytesOutside` are the frames (Sys2Proof/Safety.lean); `HaltedBy c s t` says that t is the state a fatal error c leaves. -/

open Sys2Proof Sys2Proof.Machine

/-! ## Encoding -/

/-- R90: the six fields are the bits of the word the spec names, kk = y:n and nnn = x:y:n. -/
def Obligations.FieldsAreTheSpecsBits : Prop :=
  ∀ w : Word,
    (opField w).toNat = w.toNat / 4096 ∧ (xField w).val = w.toNat / 256 % 16 ∧ (yField w).val = w.toNat / 16 % 16 ∧
    (nField w).val = w.toNat % 16 ∧ (kkField w).toNat = w.toNat % 256 ∧ (nnnField w).toNat = w.toNat % 4096 ∧
    (kkField w).toNat = (yField w).val * 16 + (nField w).val ∧
    (nnnField w).toNat = (xField w).val * 256 + (yField w).val * 16 + (nField w).val

/-- Words written out from the opcode map decode to the instructions they stand for (30_encoding.md section 3). The low nibbles of
8xy1, 8xy2, 8xy3, 8xy7 and the pairing of the Ex and Fx codes are the spec's from list order and general knowledge (log 12). -/
def Obligations.SpecWordsDecode : Prop :=
  decode true 0x00E0#16 = .ok .cls ∧ decode true 0x00EE#16 = .ok .ret ∧ decode true 0x0123#16 = .ok (.sys 0x123#12) ∧
  decode true 0x2210#16 = .ok (.call 0x210#12) ∧ decode true 0x3A5C#16 = .ok (.seImm 0xA 0x5C#8) ∧
  decode true 0x9120#16 = .ok (.sneReg 1 2) ∧ decode true 0x71FF#16 = .ok (.addImm 1 0xFF#8) ∧
  decode true 0x8AB5#16 = .ok (.subReg 0xA 0xB) ∧ decode true 0x8F0E#16 = .ok (.shl 0xF 0) ∧
  decode true 0xA123#16 = .ok (.ldI 0x123#12) ∧ decode true 0xFA33#16 = .ok (.ldB 0xA) ∧
  decode true 0xD125#16 = .ok (.drw 1 2 5) ∧ decode true 0xE59E#16 = .ok (.skp 5) ∧ decode true 0xF20A#16 = .ok (.ldVxK 2) ∧
  decode true 0x5121#16 = .error .sel5 ∧ decode true 0xF1FF#16 = .error .selF

/-- DECODE AND ENCODE AGREE: decoding the word, or the bytes, of a well-formed instruction gives it back, every operand at every
value, under either STRICT_DECODE. -/
def Obligations.DecodeInvertsEncode : Prop :=
  ∀ (strict : Bool) (i : Instr) (rest : List Byte), i.wellFormed = true →
    decode strict (encode i) = .ok i ∧ decodeBytes strict (encodeBytes i ++ rest) = .ok (i, rest)

/-- Each word has one meaning: under STRICT_DECODE = true a word that decodes to i is the encoding of i, and i is well-formed. -/
def Obligations.EncodeInvertsStrictDecode : Prop :=
  ∀ (w : Word) (i : Instr), decode true w = .ok i → i.wellFormed = true ∧ encode i = w

/-- Under STRICT_DECODE = true the decoder selects the first row of the opcode map with w & mask = match, and no instruction where
no row does (30_encoding.md section 3). The codes of 8xy1, 8xy2, 8xy3 and 8xy7 and the pairing of the Ex and Fx codes in the map
are the spec's from list order and general knowledge (PRESUMED, log 12; 93_implementation_defined.md part 2 items 2 and 3). -/
def Obligations.DecodeFollowsOpcodeMap : Prop :=
  ∀ w : Word, (decode true w).toOption = opcodeLookup w

/-- The unassigned words of 30_encoding.md section 4, under both values of STRICT_DECODE (92_eei_decisions.md D13, the spec's own
choice), and the meaning of 5xyN and 9xyN under STRICT_DECODE = false. -/
def Obligations.UnassignedWordsExactly : Prop :=
  (∀ (strict : Bool) (w : Word), (∃ u, decode strict w = .error u) ↔
    (strict = true ∧ (opField w = 0x5#4 ∨ opField w = 0x9#4) ∧ nField w ≠ 0) ∨
    (opField w = 0x8#4 ∧ nField w ∈ [0x8, 0x9, 0xA, 0xB, 0xC, 0xD, 0xF]) ∨
    (opField w = 0xE#4 ∧ kkField w ∉ [0x9E#8, 0xA1#8]) ∨
    (opField w = 0xF#4 ∧ kkField w ∉ [0x07#8, 0x0A#8, 0x15#8, 0x18#8, 0x1E#8, 0x29#8, 0x33#8, 0x55#8, 0x65#8])) ∧
  (∀ w : Word, opField w = 0x5#4 → decode false w = .ok (.seReg (xField w) (yField w))) ∧
  (∀ w : Word, opField w = 0x9#4 → decode false w = .ok (.sneReg (xField w) (yField w)))

/-! ## Memory -/

/-- Canonical memories that read the same at every address are the same data (the model's representation, log 10). -/
def Obligations.CanonicalMemoriesAreEqual : Prop :=
  ∀ (p : Params) (m m' : Memory), Memory.wf p m → Memory.wf p m' → (∀ a : Nat, m.read p a = m'.read p a) → m = m'

/-- R62: the instruction word at a is (MemRead(a) << 8) | MemRead(a + 1). -/
def Obligations.InstructionWordIsBigEndian : Prop :=
  ∀ (s : State) (a : Nat),
    s.wordAt a = ((s.readByte a).setWidth 16 <<< 8) ||| (s.readByte (a + 1)).setWidth 16

/-! ## The step engine -/

/-- A STEP RUNS THE DECODED INSTRUCTION: inputs sampled, pc advanced by 2, the instruction's rule, then the end of the step
(the tick unless the instruction halted the core). -/
def Obligations.StepRunsDecodedInstruction : Prop :=
  ∀ (s s0 : State) (w : Word) (i : Instr), StepRequested s s0 → Fetches s w → decode s.params.strictDecode w = .ok i →
    step s = Result.endStep (exec i (s0.setPc (s.pc + 2#16)))

/-- The word a host places for the next step is the word it fetches; nothing else changes in a state that already fetches
(the model's own interface, log 5): the parameters, the host's side and every element but memory, and of memory every byte but
the two at pc. -/
def Obligations.PlacedWordIsFetched : Prop :=
  ∀ (s : State) (w : Nat), Memory.wf s.params s.mem →
    Fetches (s.withFetchWord 16 w) (BitVec.ofNat 16 w) ∧ (∃ s0, StepRequested (s.withFetchWord 16 w) s0) ∧
    (∀ v, Fetches s v → (∃ s0, StepRequested s s0) →
      UnchangedExcept [.mem] s (s.withFetchWord 16 w) ∧ BytesOutside s.pc.toNat 2 s (s.withFetchWord 16 w))

/-- An unassigned word is a no-op with the pc advance and the tick (40_engine.md section 3; the tick after it is the spec's own
choice, 92_eei_decisions.md D13, D14). -/
def Obligations.UnassignedWordRunsAsNoOp : Prop :=
  ∀ (s s0 : State) (w : Word) (u : Unassigned), StepRequested s s0 → Fetches s w →
    decode s.params.strictDecode w = .error u →
    ∃ t, step s = .next t ∧ t.pc = s.pc + 2#16 ∧ t.dt.toNat = s.dt.toNat - 1 ∧ t.st.toNat = s.st.toNat - 1 ∧
      UnchangedExcept [.pc, .dt, .st] s0 t

/-- A fetch that would pass 4095 halts the core with ERR_MEM_BOUNDS before reading anything: err_pc = pc, pc kept, no tick
(40_engine.md section 2; the spec's own choices D4, D5, D7 of 92_eei_decisions.md, log 13). -/
def Obligations.FetchPastMemoryHalts : Prop :=
  ∀ s s0 : State, StepRequested s s0 → s.runState = .run → 4095 < s.pc.toNat + 1 →
    ∃ t, step s = .next t ∧ t.runState = .halted ∧ t.errCause = .memBounds ∧ t.errPc = s.pc ∧
      UnchangedExcept [.runState, .errCause, .errPc] s0 t

/-- A step that begins in HALTED or LOAD_FAILED changes no element (40_engine.md section 5; D8 and D24 of 92_eei_decisions.md,
log 14): only the host's request is taken. -/
def Obligations.StoppedCoreDoesNothing : Prop :=
  ∀ s s0 : State, StepRequested s s0 → s.runState = .halted ∨ s.runState = .loadFailed → step s = .next s0

/-- The tick follows the instruction of every executing step that raised no error, each timer floored at 0, and nothing follows
an instruction that halted the core (40_engine.md section 4; D14 and D22 of 92_eei_decisions.md, log 16). `u` is the state after
the fetched word's rule. -/
def Obligations.TickFollowsTheInstruction : Prop :=
  ∀ (s s0 u : State) (w : Word), StepRequested s s0 → Fetches s w → runWord w (s0.setPc (s.pc + 2#16)) = .next u →
    ∃ t, step s = .next t ∧ (u.runState = .halted → t = u) ∧
      (u.runState ≠ .halted →
        t.dt.toNat = u.dt.toNat - 1 ∧ t.st.toNat = u.st.toNat - 1 ∧ UnchangedExcept [.dt, .st] u t)

/-- R132: a step never blocks (it always answers a next state), and a key-wait step with no key pressed returns with nothing
changed. -/
def Obligations.StepNeverBlocks : Prop :=
  (∀ s : State, ∃ t, step s = .next t) ∧
  (∀ s s0 : State, StepRequested s s0 → s.runState = .waitKey → s0.host.keys = 0#16 → step s = .next s0)

/-- The key-wait poll: with no key pressed nothing changes; otherwise the least pressed key goes to V[kw_reg], the core runs again
and pc moves by KEYWAIT_RESUME_ADVANCE; no fetch and no tick (45_keys_timers.md section 3; D21 of 92_eei_decisions.md and C1, C2
of 90_conflicts.md, log 17). -/
def Obligations.KeyWaitPollCommitsLowestKey : Prop :=
  ∀ s s0 : State, StepRequested s s0 → s.runState = .waitKey →
    (s0.host.keys = 0#16 → step s = .next s0) ∧
    (∀ k : Key, IsLowestKey s0.host.keys k →
      ∃ t, step s = .next t ∧ t.runState = .run ∧ (t.reg s.kwReg).toNat = k.val ∧ RegsExcept [s.kwReg] s0 t ∧
        (s.params.resumeAdvance = .two → t.pc = s.pc + 2#16) ∧ (s.params.resumeAdvance = .zero → t.pc = s.pc) ∧
        UnchangedExcept [.v, .runState, .pc] s0 t)

/-- `LowestKey()` is the least k with bit k set, and NONE exactly when no key is pressed (45_keys_timers.md section 1; D19). -/
def Obligations.LowestKeyIsTheLeastPressed : Prop :=
  ∀ keys : BitVec 16, (∀ k : Key, lowestKey keys = some k ↔ IsLowestKey keys k) ∧ (lowestKey keys = none ↔ keys = 0#16)

/-- The transitions of run_state under a step request (10_state.md section 8; D8 and D9 of 92_eei_decisions.md, log 14): WAIT_KEY
is entered by Fx0A alone and left only to RUN; HALTED and LOAD_FAILED are not left. -/
def Obligations.RunStateTransitions : Prop :=
  ∀ s s0 t : State, StepRequested s s0 → step s = .next t →
    (s.runState = .run → t.runState = .run ∨ t.runState = .waitKey ∨ t.runState = .halted) ∧
    (s.runState = .run → t.runState = .waitKey →
      ∃ x, decode s.params.strictDecode (s.wordAt s.pc.toNat) = .ok (.ldVxK x) ∧ t.kwReg = x) ∧
    (s.runState = .waitKey → t.runState = .waitKey ∨ t.runState = .run) ∧
    (s.runState = .halted → t.runState = .halted) ∧ (s.runState = .loadFailed → t.runState = .loadFailed)

/-- THE INVARIANT IS KEPT BY EVERY STEP, resets included: memory stays in its canonical form (within 0..4095), and the error
record agrees with run_state. -/
def Obligations.StepKeepsInvariant : Prop :=
  ∀ s t : State, s.Inv → step s = .next t → t.Inv

/-- The state right after reset meets the invariant. -/
def Obligations.ResetMeetsInvariant : Prop := State.reset.Inv

/-- No step changes the parameters, and each step takes the one oldest request (the model's interface, log 1, log 4). -/
def Obligations.StepKeepsParamsAndTakesOneRequest : Prop :=
  ∀ s t : State, step s = .next t → t.params = s.params ∧ t.host.requests = s.host.requests.tail

/-- Of the instructions, RND alone reads the random byte, and SKP and SKNP alone read the key snapshot; the key-wait poll, which is
no instruction, reads the snapshot too (KeyWaitPollCommitsLowestKey)
(40_engine.md section 6, 42_register_alu.md section 2; D19 and D20 of 92_eei_decisions.md). -/
def Obligations.InputsReadOnlyByTheirInstructions : Prop :=
  (∀ (i : Instr) (s t : State) (b : Byte), (∀ x kk, i ≠ .rnd x kk) → exec i s = .next t →
    exec i { s with host := { s.host with rnd := b } } = .next { t with host := { t.host with rnd := b } }) ∧
  (∀ (i : Instr) (s t : State) (k : BitVec 16), (∀ x, i ≠ .skp x ∧ i ≠ .sknp x) → exec i s = .next t →
    exec i { s with host := { s.host with keys := k } } = .next { t with host := { t.host with keys := k } })

/-- A delay timer left alone counts executing steps: over n steps that each execute an instruction other than LD DT and do not
halt, DT goes from N to max(N − n, 0) (70_reset_and_hazards.md section 3). -/
def Obligations.DelayTimerCountsExecutingSteps : Prop :=
  ∀ (run : Nat → State) (n : Nat),
    (∀ k, k < n → (∃ s0, StepRequested (run k) s0) ∧ (∃ w, Fetches (run k) w ∧
        ∀ x, decode (run k).params.strictDecode w ≠ .ok (.ldDtVx x)) ∧
      step (run k) = .next (run (k + 1)) ∧ (run (k + 1)).runState ≠ .halted) →
    (run n).dt.toNat = (run 0).dt.toNat - n

/-! ## Errors -/

/-- FATAL ERRORS, EXACTLY WHERE AND PRECISE: an instruction whose error condition holds halts the core with that cause, its own
address, and no other effect; an instruction whose condition does not hold does not halt it (60_exceptions.md section 1; D4, D6,
D7, D9, D15 of 92_eei_decisions.md, log 13, log 14). -/
def Obligations.FatalErrorsExactlyWhere : Prop :=
  (∀ (i : Instr) (s : State) (c : ErrCause), errorOf i s = some c → ∃ t, exec i s = .next t ∧ HaltedBy c s t) ∧
  (∀ (i : Instr) (s t : State), errorOf i s = none → exec i s = .next t → s.runState ≠ .halted → t.runState ≠ .halted)

/-- THE FRAME OF EVERY INSTRUCTION: where its error condition does not hold, it answers a next state in which only the elements
and the registers its rule names may differ (10_state.md section 2, 40_engine.md section 3). For RET this says that the popped entry of
the stack keeps its value, which is the model's reading of R35 and no claim of every implementation (log 7: UNSAFE at or above
SP). -/
def Obligations.InstructionsWriteOnlyTheirOwn : Prop :=
  ∀ (i : Instr) (s : State), errorOf i s = none →
    ∃ t, exec i s = .next t ∧ UnchangedExcept (mayWrite i) s t ∧ RegsExcept (destRegs i) s t

/-! ## Reset -/

/-- A reset with a valid image leaves every element at its reset value: memory holds the font table, the image verbatim from
0x200, and 0x00 elsewhere (70_reset_and_hazards.md section 1; D2, D3, D8, D9 of 92_eei_decisions.md, log 14). -/
def Obligations.ResetLoadsTheImage : Prop :=
  ∀ (s : State) (image : List Byte), 1 ≤ image.length → image.length ≤ 3584 →
    ∃ t, s.resetWith image = t ∧
      (∀ (k : Nat) (h : k < image.length), t.readByte (512 + k) = image[k]) ∧
      (∀ k : Fin 80, t.readByte (s.params.fontBase.val + k.val) = s.params.fontTable[k.val]) ∧
      (∀ a : Nat, a ≤ 4095 → a < 512 ∨ 512 + image.length ≤ a →
        a < s.params.fontBase.val ∨ s.params.fontBase.val + 80 ≤ a → t.readByte a = 0x00#8) ∧
      (∀ r : Reg, t.reg r = 0x00#8) ∧ t.i = 0x0000#16 ∧ t.pc = 0x0200#16 ∧ (∀ k : Fin 16, t.stack[k.val] = 0x0000#16) ∧
      t.sp.val = 0 ∧ t.dt = 0x00#8 ∧ t.st = 0x00#8 ∧ (∀ r c, t.fb.pixel r c = false) ∧ t.runState = .run ∧ t.kwReg = 0 ∧
      t.errCause = .none ∧ t.errPc = 0x0000#16 ∧ t.params = s.params ∧ t.host = s.host

/-- A reset with an empty or oversized image leaves LOAD_FAILED with ERR_OUT_OF_SPACE and err_pc 0 (70_reset_and_hazards.md
section 1; D9 and D24 of 92_eei_decisions.md). Nothing is said of the other elements, which the spec leaves unspecified
(log 6). -/
def Obligations.FailedLoadIsReported : Prop :=
  ∀ (s : State) (image : List Byte), image.length = 0 ∨ 3584 < image.length →
    (s.resetWith image).runState = .loadFailed ∧ (s.resetWith image).errCause = .outOfSpace ∧
    (s.resetWith image).errPc = 0x0000#16 ∧ (s.resetWith image).errCauseOut = 5#8

/-- A reset request is served in any run_state, and a successful one forgets the state before it (70_reset_and_hazards.md
section 1; D8 and D26 of 92_eei_decisions.md, log 4). -/
def Obligations.ResetForgetsTheStateBefore : Prop :=
  (∀ (s : State) (image : List Byte) (rest : List Request), s.host.requests = .reset image :: rest →
    step s = .next (State.resetWith { s with host := { s.host with requests := rest } } image)) ∧
  (∀ (s t : State) (image : List Byte), 1 ≤ image.length → image.length ≤ 3584 → s.params = t.params → s.host = t.host →
    s.resetWith image = t.resetWith image)

/-- State.reset holds the reset values of 10_state.md section 12, with the defaults of R8 as parameters (the spec's own choices,
DESIGN CHOICE, log 1) and no image byte placed (the model's choice, log 5; the font bytes are general knowledge, log 2). -/
def Obligations.ResetStateHasTheResetValues : Prop :=
  (∀ k : Fin 80, State.reset.readByte (0x050 + k.val) = defaultFontTable[k.val]) ∧
  (∀ a : Nat, a ≤ 4095 → a < 0x050 ∨ 0x050 + 80 ≤ a → State.reset.readByte a = 0x00#8) ∧
  (∀ r : Reg, State.reset.reg r = 0x00#8) ∧ State.reset.i = 0x0000#16 ∧ State.reset.pc = 0x0200#16 ∧
  (∀ k : Fin 16, State.reset.stack[k.val] = 0x0000#16) ∧ State.reset.sp.val = 0 ∧ State.reset.dt = 0x00#8 ∧
  State.reset.st = 0x00#8 ∧ (∀ r c, State.reset.fb.pixel r c = false) ∧ State.reset.runState = .run ∧ State.reset.kwReg = 0 ∧
  State.reset.errCause = .none ∧ State.reset.errPc = 0x0000#16 ∧
  State.reset.params.fontBase.val = 0x050 ∧ State.reset.params.fontTable = defaultFontTable ∧
  State.reset.params.underflow = .fatal ∧ State.reset.params.shiftSource = .vx ∧ State.reset.params.ldstIMode = .none ∧
  State.reset.params.strictDecode = true ∧ State.reset.params.keyRange = .fatal ∧ State.reset.params.fontIndex = .full ∧
  State.reset.params.resumeAdvance = .two ∧ State.reset.params.subEqFlag = .zero

/-- The output ports: status and err_cause show run_state and the cause by the spec's codes, err_pc, pc_out and st_out their elements,
and fb_data the packed bytes of the framebuffer (60_exceptions.md sections 1 and 4; D1 and D9 of 92_eei_decisions.md). -/
def Obligations.OutputsShowStatusAndErrors : Prop :=
  ∀ s : State,
    s.statusOut.toNat =
      (match s.runState with
      | .run => 0 | .waitKey => 1 | .halted => 2 | .loadFailed => 3) ∧
    s.errCauseOut.toNat =
      (match s.errCause with
      | .none => 0 | .stackOverflow => 1 | .stackUnderflow => 2 | .memBounds => 3 | .keyRange => 4 | .outOfSpace => 5) ∧
    s.errPcOut = s.errPc ∧ s.pcOut = s.pc ∧ s.stOut = s.st ∧ ∀ k : Fin 256, s.fbData k = s.fb.packedByte k

/-! ## Control flow -/

/-- RET: the popped address goes to pc; on an empty stack, ERR_STACK_UNDERFLOW under FATAL, a jump to 0 under SENTINEL
(41_control_flow.md section 1; D6 and D7 of 92_eei_decisions.md). That the popped entry of the stack keeps its value is the model's
reading of R35 (log 7: UNSAFE at or above SP). -/
def Obligations.ReturnPopsTheStack : Prop :=
  (∀ (s : State) (k : Fin 16), k.val + 1 = s.sp.val →
    ∃ t, exec .ret s = .next t ∧ t.pc = s.stack[k.val] ∧ t.sp.val = k.val ∧ UnchangedExcept [.pc, .sp] s t) ∧
  (∀ s : State, s.sp.val = 0 → s.params.underflow = .fatal →
    ∃ t, exec .ret s = .next t ∧ HaltedBy .stackUnderflow s t) ∧
  (∀ s : State, s.sp.val = 0 → s.params.underflow = .sentinel →
    ∃ t, exec .ret s = .next t ∧ t.pc = 0x0000#16 ∧ UnchangedExcept [.pc] s t)

/-- SYS nnn does nothing; its step advances pc by 2 and ticks (41_control_flow.md section 1; the tick after 0nnn is the spec's own
choice, D14 of 92_eei_decisions.md and C4 of 90_conflicts.md, log 16). -/
def Obligations.SysDoesNothing : Prop :=
  (∀ (nnn : Addr12) (s : State), exec (.sys nnn) s = .next s) ∧
  (∀ (s s0 : State) (w : Word) (nnn : Addr12), StepRequested s s0 → Fetches s w →
    decode s.params.strictDecode w = .ok (.sys nnn) →
    ∃ t, step s = .next t ∧ t.pc = s.pc + 2#16 ∧ t.dt.toNat = s.dt.toNat - 1 ∧ t.st.toNat = s.st.toNat - 1 ∧
      UnchangedExcept [.pc, .dt, .st] s0 t)

/-- JP nnn sets pc to nnn, JP V0, nnn to nnn + V0 (always V0, no wrap); nothing else changes (41_control_flow.md section 1). A target
at or above 0x0FFF faults at the next fetch, with the cause and err_pc of the spec's own choices D4, D5, D7 of
92_eei_decisions.md (log 13). -/
def Obligations.JumpsSetPc : Prop :=
  (∀ (nnn : Addr12) (s : State),
    ∃ t, exec (.jp nnn) s = .next t ∧ t.pc.toNat = nnn.toNat ∧ UnchangedExcept [.pc] s t) ∧
  (∀ (nnn : Addr12) (s : State),
    ∃ t, exec (.jpV0 nnn) s = .next t ∧ t.pc.toNat = nnn.toNat + (s.reg 0).toNat ∧ UnchangedExcept [.pc] s t) ∧
  (∀ t t0 : State, StepRequested t t0 → t.runState = .run → 0x0FFF ≤ t.pc.toNat →
    ∃ u, step t = .next u ∧ u.runState = .halted ∧ u.errCause = .memBounds ∧ u.errPc = t.pc)

/-- CALL nnn pushes the advanced pc and jumps; on a full stack ERR_STACK_OVERFLOW, with nothing pushed (41_control_flow.md
section 1; D7 of 92_eei_decisions.md). -/
def Obligations.CallPushesReturnAddress : Prop :=
  (∀ (nnn : Addr12) (s : State) (k : Fin 16), k.val = s.sp.val →
    ∃ t, exec (.call nnn) s = .next t ∧ t.pc.toNat = nnn.toNat ∧ t.sp.val = s.sp.val + 1 ∧ t.stack[k.val] = s.pc ∧
      (∀ j : Fin 16, j ≠ k → t.stack[j.val] = s.stack[j.val]) ∧ UnchangedExcept [.pc, .sp, .stack] s t) ∧
  (∀ (nnn : Addr12) (s : State), s.sp.val = 16 → ∃ t, exec (.call nnn) s = .next t ∧ HaltedBy .stackOverflow s t)

/-- R154 and R155: SE and SNE with an immediate add 2 to pc exactly when their condition holds, and change nothing else. -/
def Obligations.ImmediateSkips : Prop :=
  ∀ (x : Reg) (kk : Byte) (s : State),
    (∃ t, exec (.seImm x kk) s = .next t ∧ t.pc = (if s.reg x = kk then s.pc + 2#16 else s.pc) ∧
      UnchangedExcept [.pc] s t) ∧
    (∃ t, exec (.sneImm x kk) s = .next t ∧ t.pc = (if s.reg x ≠ kk then s.pc + 2#16 else s.pc) ∧
      UnchangedExcept [.pc] s t)

/-- SE and SNE on two registers add 2 to pc exactly when their condition holds, and change nothing else (41_control_flow.md
section 1). -/
def Obligations.RegisterSkips : Prop :=
  ∀ (x y : Reg) (s : State),
    (∃ t, exec (.seReg x y) s = .next t ∧ t.pc = (if s.reg x = s.reg y then s.pc + 2#16 else s.pc) ∧
      UnchangedExcept [.pc] s t) ∧
    (∃ t, exec (.sneReg x y) s = .next t ∧ t.pc = (if s.reg x ≠ s.reg y then s.pc + 2#16 else s.pc) ∧
      UnchangedExcept [.pc] s t)

/-- A CALL and its matching RET: from any state u with the depth and the entries the CALL left, RET goes to the address after the
CALL and restores the depth (41_control_flow.md section 2). -/
def Obligations.CallThenReturnRoundTrip : Prop :=
  ∀ (nnn : Addr12) (s t u : State), s.sp.val < 16 → exec (.call nnn) s = .next t → u.sp = t.sp →
    (∀ j : Fin 16, j.val < t.sp.val → u.stack[j.val] = t.stack[j.val]) →
    ∃ v, exec .ret u = .next v ∧ v.pc = s.pc ∧ v.sp = s.sp ∧
      ∀ j : Fin 16, j.val < s.sp.val → v.stack[j.val] = s.stack[j.val]

/-! ## Registers and the ALU -/

/-- R180, R181 and R182: LD Vx, kk and LD Vx, Vy copy; ADD Vx, kk adds modulo 256 and sets no flag. -/
def Obligations.LoadAndAddImmediateResults : Prop :=
  ∀ (x y : Reg) (kk : Byte) (s : State),
    (∃ t, exec (.ldImm x kk) s = .next t ∧ t.reg x = kk ∧ RegsExcept [x] s t ∧ UnchangedExcept [.v] s t) ∧
    (∃ t, exec (.addImm x kk) s = .next t ∧ (t.reg x).toNat = ((s.reg x).toNat + kk.toNat) % 256 ∧ RegsExcept [x] s t ∧
      UnchangedExcept [.v] s t) ∧
    (∃ t, exec (.ldReg x y) s = .next t ∧ t.reg x = s.reg y ∧ RegsExcept [x] s t ∧ UnchangedExcept [.v] s t)

/-- OR, AND and XOR write V[x] bit by bit and no other register, VF included (42_register_alu.md section 1; VF unchanged is the
spec's own choice, 92_eei_decisions.md D12; the codes of the three are log 12). -/
def Obligations.BitwiseResults : Prop :=
  ∀ (x y : Reg) (s : State),
    (∃ t, exec (.orReg x y) s = .next t ∧
      (∀ b < 8, (t.reg x).getLsbD b = ((s.reg x).getLsbD b || (s.reg y).getLsbD b)) ∧ RegsExcept [x] s t ∧
      UnchangedExcept [.v] s t) ∧
    (∃ t, exec (.andReg x y) s = .next t ∧
      (∀ b < 8, (t.reg x).getLsbD b = ((s.reg x).getLsbD b && (s.reg y).getLsbD b)) ∧ RegsExcept [x] s t ∧
      UnchangedExcept [.v] s t) ∧
    (∃ t, exec (.xorReg x y) s = .next t ∧
      (∀ b < 8, (t.reg x).getLsbD b = ((s.reg x).getLsbD b != (s.reg y).getLsbD b)) ∧ RegsExcept [x] s t ∧
      UnchangedExcept [.v] s t)

/-- R186: ADD Vx, Vy writes the sum modulo 256 (lost when x = 0xF) and the carry to VF, from the operands read first. -/
def Obligations.AddSetsCarry : Prop :=
  ∀ (x y : Reg) (s : State),
    ∃ t, exec (.addReg x y) s = .next t ∧
      (x ≠ 15 → (t.reg x).toNat = ((s.reg x).toNat + (s.reg y).toNat) % 256) ∧
      (t.reg 15).toNat = (if (s.reg x).toNat + (s.reg y).toNat > 255 then 1 else 0) ∧
      RegsExcept [x, 15] s t ∧ UnchangedExcept [.v] s t

/-- SUB and SUBN write the difference modulo 256 (lost when x = 0xF) and the not-borrow flag to VF: strictly greater under
SUB_EQ_FLAG = 0, greater or equal under 1 (42_register_alu.md section 1; D29 of 92_eei_decisions.md, C3 of 90_conflicts.md). -/
def Obligations.SubtractionsSetNotBorrow : Prop :=
  ∀ (x y : Reg) (s : State),
    (∃ t, exec (.subReg x y) s = .next t ∧
      (x ≠ 15 → (t.reg x).toNat = ((s.reg x).toNat + 256 - (s.reg y).toNat) % 256) ∧
      (s.params.subEqFlag = .zero → (t.reg 15).toNat = if (s.reg x).toNat > (s.reg y).toNat then 1 else 0) ∧
      (s.params.subEqFlag = .one → (t.reg 15).toNat = if (s.reg x).toNat ≥ (s.reg y).toNat then 1 else 0) ∧
      RegsExcept [x, 15] s t ∧ UnchangedExcept [.v] s t) ∧
    (∃ t, exec (.subn x y) s = .next t ∧
      (x ≠ 15 → (t.reg x).toNat = ((s.reg y).toNat + 256 - (s.reg x).toNat) % 256) ∧
      (s.params.subEqFlag = .zero → (t.reg 15).toNat = if (s.reg y).toNat > (s.reg x).toNat then 1 else 0) ∧
      (s.params.subEqFlag = .one → (t.reg 15).toNat = if (s.reg y).toNat ≥ (s.reg x).toNat then 1 else 0) ∧
      RegsExcept [x, 15] s t ∧ UnchangedExcept [.v] s t)

/-- SHR and SHL shift V[x] (V[y] under SHIFT_SOURCE = VY) by one into V[x] (lost when x = 0xF) and put the bit shifted out in VF
(42_register_alu.md section 1; D10 of 92_eei_decisions.md). -/
def Obligations.ShiftsSetTheBitShiftedOut : Prop :=
  ∀ (x y : Reg) (s : State) (b : Byte),
    (s.params.shiftSource = .vx → b = s.reg x) → (s.params.shiftSource = .vy → b = s.reg y) →
    (∃ t, exec (.shr x y) s = .next t ∧ (x ≠ 15 → (t.reg x).toNat = b.toNat / 2) ∧ (t.reg 15).toNat = b.toNat % 2 ∧
      RegsExcept [x, 15] s t ∧ UnchangedExcept [.v] s t) ∧
    (∃ t, exec (.shl x y) s = .next t ∧ (x ≠ 15 → (t.reg x).toNat = b.toNat * 2 % 256) ∧
      (t.reg 15).toNat = b.toNat / 128 ∧ RegsExcept [x, 15] s t ∧ UnchangedExcept [.v] s t)

/-- RND writes the step's random byte masked by kk, whatever the byte is (42_register_alu.md section 1; D20 of
92_eei_decisions.md, log 3). -/
def Obligations.RandomByteIsMasked : Prop :=
  ∀ (x : Reg) (kk : Byte) (s : State),
    ∃ t, exec (.rnd x kk) s = .next t ∧ (∀ b < 8, (t.reg x).getLsbD b = (s.host.rnd.getLsbD b && kk.getLsbD b)) ∧
      RegsExcept [x] s t ∧ UnchangedExcept [.v] s t

/-- R23: in an instruction that sets VF the flag write is the last, the operands having been read first: with VF as the
destination, VF holds the flag afterwards, computed from the old values (VF's own among them). DRW has no result register; its
coordinates may be in VF and are read before the flag is written. -/
def Obligations.FlagWriteIsTheLast : Prop :=
  ∀ (y : Reg) (s : State),
    (∃ t, exec (.addReg 15 y) s = .next t ∧ t.reg 15 = flagByte (carry (s.reg 15) (s.reg y))) ∧
    (∃ t, exec (.subReg 15 y) s = .next t ∧ t.reg 15 = flagByte (notBorrow s.params (s.reg 15) (s.reg y))) ∧
    (∃ t, exec (.shr 15 y) s = .next t ∧ t.reg 15 = flagByte (lsb (s.shiftOperand 15 y))) ∧
    (∃ t, exec (.subn 15 y) s = .next t ∧ t.reg 15 = flagByte (notBorrow s.params (s.reg y) (s.reg 15))) ∧
    (∃ t, exec (.shl 15 y) s = .next t ∧ t.reg 15 = flagByte (msb (s.shiftOperand 15 y))) ∧
    (∀ (x : Reg) (n : Count), n.val = 0 ∨ s.i.toNat + n.val - 1 ≤ 4095 →
      ∃ t d, exec (.drw x y n) s = .next t ∧
        d = s.fb.draw (s.reg x).toNat (s.reg y).toNat ((List.range n.val).map fun k => s.readByte (s.i.toNat + k)) ∧
        t.fb = d.1 ∧ t.reg 15 = flagByte d.2)

/-- The six flag-setting instructions always leave 0 or 1 in VF; every other instruction treats VF as any register, so VF
changes only where it is a destination (10_state.md section 2). -/
def Obligations.FlagRegisterRule : Prop :=
  (∀ (i : Instr) (s : State), setsFlag i = true → errorOf i s = none →
    ∃ t, exec i s = .next t ∧ (t.reg 15 = 0x00#8 ∨ t.reg 15 = 0x01#8)) ∧
  (∀ (i : Instr) (s t : State), setsFlag i = false → exec i s = .next t → 15 ∉ destRegs i → t.reg 15 = s.reg 15)

/-! ## The address register and memory -/

/-- R210 and R211: LD I, nnn writes nnn zero-extended; ADD I, Vx adds modulo 2^16; no flag, no check. -/
def Obligations.AddressRegisterResults : Prop :=
  (∀ (nnn : Addr12) (s : State),
    ∃ t, exec (.ldI nnn) s = .next t ∧ t.i.toNat = nnn.toNat ∧ UnchangedExcept [.i] s t) ∧
  (∀ (x : Reg) (s : State),
    ∃ t, exec (.addI x) s = .next t ∧ t.i.toNat = (s.i.toNat + (s.reg x).toNat) % 65536 ∧ UnchangedExcept [.i] s t)

/-- LD F, Vx points I at the glyph: FONT_BASE + 5·V[x], or 5·(V[x] mod 16) under FONT_INDEX = LOW_NIBBLE; no fault, no access
(43_address_memory.md section 1; D2 and D16 of 92_eei_decisions.md). -/
def Obligations.FontGlyphAddress : Prop :=
  ∀ (x : Reg) (s : State),
    ∃ t, exec (.ldF x) s = .next t ∧
      (s.params.fontIndex = .full → t.i.toNat = s.params.fontBase.val + 5 * (s.reg x).toNat) ∧
      (s.params.fontIndex = .lowNibble → t.i.toNat = s.params.fontBase.val + 5 * ((s.reg x).toNat % 16)) ∧
      UnchangedExcept [.i] s t

/-- LD B, Vx stores the hundreds, tens and ones of V[x] at I, I + 1, I + 2 and changes no other byte; past 4095 it halts with
nothing stored (43_address_memory.md section 1; D4 and D7 of 92_eei_decisions.md). Memory in its canonical form. -/
def Obligations.BcdStoresTheDigits : Prop :=
  ∀ (x : Reg) (s : State), Memory.wf s.params s.mem →
    (s.i.toNat + 2 ≤ 4095 →
      ∃ t, exec (.ldB x) s = .next t ∧ (t.readByte s.i.toNat).toNat = (s.reg x).toNat / 100 ∧
        (t.readByte (s.i.toNat + 1)).toNat = (s.reg x).toNat / 10 % 10 ∧
        (t.readByte (s.i.toNat + 2)).toNat = (s.reg x).toNat % 10 ∧
        BytesOutside s.i.toNat 3 s t ∧ UnchangedExcept [.mem] s t) ∧
    (4095 < s.i.toNat + 2 → ∃ t, exec (.ldB x) s = .next t ∧ HaltedBy .memBounds s t)

/-- LD [I], Vx stores V0..Vx at I..I + x and changes no other byte, then I moves by LDST_I_MODE; past 4095 it halts with nothing
stored (43_address_memory.md section 1; D4, D7 and D11 of 92_eei_decisions.md). Memory in its canonical form. -/
def Obligations.StoreRegistersAtI : Prop :=
  ∀ (x : Reg) (s : State), Memory.wf s.params s.mem →
    (s.i.toNat + x.val ≤ 4095 →
      ∃ t, exec (.storeRegs x) s = .next t ∧ (∀ r : Reg, r ≤ x → t.readByte (s.i.toNat + r.val) = s.reg r) ∧
        BytesOutside s.i.toNat (x.val + 1) s t ∧
        (s.params.ldstIMode = .none → t.i = s.i) ∧
        (s.params.ldstIMode = .plusX → t.i.toNat = (s.i.toNat + x.val) % 65536) ∧
        (s.params.ldstIMode = .plusX1 → t.i.toNat = (s.i.toNat + x.val + 1) % 65536) ∧
        UnchangedExcept [.mem, .i] s t) ∧
    (4095 < s.i.toNat + x.val → ∃ t, exec (.storeRegs x) s = .next t ∧ HaltedBy .memBounds s t)

/-- LD Vx, [I] loads V0..Vx from I..I + x and no other register, VF as data, then I moves by LDST_I_MODE; past 4095 it halts with
nothing loaded (43_address_memory.md section 1; D4, D7 and D11 of 92_eei_decisions.md). -/
def Obligations.LoadRegistersFromI : Prop :=
  ∀ (x : Reg) (s : State),
    (s.i.toNat + x.val ≤ 4095 →
      ∃ t, exec (.loadRegs x) s = .next t ∧
        (∀ r : Reg, t.reg r = if r ≤ x then s.readByte (s.i.toNat + r.val) else s.reg r) ∧
        (s.params.ldstIMode = .none → t.i = s.i) ∧
        (s.params.ldstIMode = .plusX → t.i.toNat = (s.i.toNat + x.val) % 65536) ∧
        (s.params.ldstIMode = .plusX1 → t.i.toNat = (s.i.toNat + x.val + 1) % 65536) ∧
        UnchangedExcept [.v, .i] s t) ∧
    (4095 < s.i.toNat + x.val → ∃ t, exec (.loadRegs x) s = .next t ∧ HaltedBy .memBounds s t)

/-- The font reads back: with memory as a reset left it, LD F on a digit g and five reads at I give glyph g of FONT_TABLE, whatever
the table (10_state.md section 9, 43_address_memory.md section 1). -/
def Obligations.FontGlyphsReadBack : Prop :=
  ∀ (s u : State) (image : List Byte) (x : Reg) (g : Fin 16), 1 ≤ image.length → image.length ≤ 3584 →
    u.mem = (s.resetWith image).mem → u.params = s.params → (u.reg x).toNat = g.val →
    ∃ t, exec (.ldF x) u = .next t ∧
      ∀ k : Fin 5, t.readByte (t.i.toNat + k.val) = s.params.fontTable[5 * g.val + k.val]

/-! ## The framebuffer -/

/-- R241: CLS clears every pixel, so all 256 packed bytes are 0x00, and touches nothing else (VF included). -/
def Obligations.ClearScreenClears : Prop :=
  ∀ s : State,
    ∃ t, exec .cls s = .next t ∧ (∀ r c, t.fb.pixel r c = false) ∧ (∀ k, t.fbData k = 0x00#8) ∧ UnchangedExcept [.fb] s t

/-- The packed view the port fb_data gives: pixel (r, c) is bit 7 − (c mod 8) of fbbyte[8·r + c div 8] (10_state.md section 7,
60_exceptions.md section 4; row-major order is the spec's own choice, 92_eei_decisions.md D30). -/
def Obligations.PackedByteLayout : Prop :=
  ∀ (s : State) (r : Fin 32) (c : Fin 64) (k : Fin 256), k.val = 8 * r.val + c.val / 8 →
    s.fb.pixel r c = (s.fbData k).getLsbD (7 - c.val % 8)

/-- DRW: exactly the pixels of the sprite's set bits are flipped, rows wrapping modulo 32 and columns modulo 64, and VF is 1 if one
of them went from 1 to 0, else 0 (n = 0 included); past 4095 it halts with no pixel and no register changed (44_display.md
sections 2 and 3; D4, D7 and D17 of 92_eei_decisions.md, log 19). -/
def Obligations.DrawFlipsTheSpritesPixels : Prop :=
  ∀ (x y : Reg) (n : Count) (s : State),
    (n.val = 0 ∨ s.i.toNat + n.val - 1 ≤ 4095 →
      ∃ t, exec (.drw x y n) s = .next t ∧
        (∀ r c, Drawn s x y n r c → t.fb.pixel r c = !s.fb.pixel r c) ∧
        (∀ r c, ¬ Drawn s x y n r c → t.fb.pixel r c = s.fb.pixel r c) ∧
        ((∃ r c, Drawn s x y n r c ∧ s.fb.pixel r c = true) → t.reg 15 = 0x01#8) ∧
        ((∀ r c, Drawn s x y n r c → s.fb.pixel r c = false) → t.reg 15 = 0x00#8) ∧
        RegsExcept [15] s t ∧ UnchangedExcept [.fb, .v] s t) ∧
    (1 ≤ n.val → 4095 < s.i.toNat + n.val - 1 → ∃ t, exec (.drw x y n) s = .next t ∧ HaltedBy .memBounds s t)

/-- Drawing the same sprite at the same place again restores the framebuffer exactly, and the second draw's VF is 1 if and only if
the first draw set some pixel (44_display.md section 2 for both directions, and section 3 as the source's quoted sentence says it;
log 19). `u` is any state
with the framebuffer the first draw left and the same coordinates, I and sprite bytes. -/
def Obligations.DrawTwiceRestores : Prop :=
  ∀ (x y : Reg) (n : Count) (s t u : State), n.val = 0 ∨ s.i.toNat + n.val - 1 ≤ 4095 →
    exec (.drw x y n) s = .next t → u.fb = t.fb → u.reg x = s.reg x → u.reg y = s.reg y → u.i = s.i →
    (∀ k < n.val, u.readByte (s.i.toNat + k) = s.readByte (s.i.toNat + k)) →
    ∃ v, exec (.drw x y n) u = .next v ∧ v.fb = s.fb ∧
      (v.reg 15 = 0x01#8 ↔ ∃ r c, s.fb.pixel r c = false ∧ t.fb.pixel r c = true) ∧
      (v.reg 15 = 0x00#8 ↔ ∀ r c, s.fb.pixel r c = false → t.fb.pixel r c = false)

/-! ## Keys and timers -/

/-- SKP skips if key V[x] is pressed in the step's snapshot, SKNP if it is not; a number above 15 follows KEY_RANGE_POLICY
(45_keys_timers.md sections 2 and 3; D15 and D19 of 92_eei_decisions.md). -/
def Obligations.KeySkips : Prop :=
  ∀ (x : Reg) (s : State),
    (∀ k : Key, (s.reg x).toNat = k.val ∨ (15 < (s.reg x).toNat ∧ s.params.keyRange = .lowNibble ∧
        k.val = (s.reg x).toNat % 16) →
      (∃ t, exec (.skp x) s = .next t ∧ t.pc = (if s.host.keys.getLsbD k.val then s.pc + 2#16 else s.pc) ∧
        UnchangedExcept [.pc] s t) ∧
      (∃ t, exec (.sknp x) s = .next t ∧ t.pc = (if s.host.keys.getLsbD k.val then s.pc else s.pc + 2#16) ∧
        UnchangedExcept [.pc] s t)) ∧
    (15 < (s.reg x).toNat → s.params.keyRange = .notPressed →
      exec (.skp x) s = .next s ∧
      ∃ t, exec (.sknp x) s = .next t ∧ t.pc = s.pc + 2#16 ∧ UnchangedExcept [.pc] s t) ∧
    (15 < (s.reg x).toNat → s.params.keyRange = .fatal →
      (∃ t, exec (.skp x) s = .next t ∧ HaltedBy .keyRange s t) ∧
      (∃ t, exec (.sknp x) s = .next t ∧ HaltedBy .keyRange s t))

/-- LD Vx, DT reads DT before the step's tick; LD DT, Vx and LD ST, Vx write the timers, which the end of the same step then
decrements (45_keys_timers.md section 2; D22 of 92_eei_decisions.md, log 16). -/
def Obligations.TimerTransfers : Prop :=
  ∀ (x : Reg) (s : State),
    (∃ t, exec (.ldVxDt x) s = .next t ∧ t.reg x = s.dt ∧ RegsExcept [x] s t ∧ UnchangedExcept [.v] s t) ∧
    (∃ t, exec (.ldDtVx x) s = .next t ∧ t.dt = s.reg x ∧ UnchangedExcept [.dt] s t ∧
      (s.runState = .run → t.endStep.dt.toNat = (s.reg x).toNat - 1)) ∧
    (∃ t, exec (.ldStVx x) s = .next t ∧ t.st = s.reg x ∧ UnchangedExcept [.st] s t ∧
      (s.runState = .run → t.endStep.st.toNat = (s.reg x).toNat - 1))

/-- LD Vx, K sets kw_reg and WAIT_KEY and writes nothing else, V[x] included (45_keys_timers.md section 2). -/
def Obligations.KeyWaitEntry : Prop :=
  ∀ (x : Reg) (s : State),
    ∃ t, exec (.ldVxK x) s = .next t ∧ t.kwReg = x ∧ t.runState = .waitKey ∧ UnchangedExcept [.kwReg, .runState] s t

/-- With a key pressed at the step after it, LD Vx, K at address a is over in two steps: V[x] holds the least pressed key, pc is
a + 4 (a + 2 under KEYWAIT_RESUME_ADVANCE = 0), and the timers moved once (70_reset_and_hazards.md section 3; D21 of
92_eei_decisions.md, log 17). -/
def Obligations.KeyWaitTakesTwoSteps : Prop :=
  ∀ (s s0 t t0 : State) (w : Word) (x : Reg) (k : Key), StepRequested s s0 → Fetches s w →
    decode s.params.strictDecode w = .ok (.ldVxK x) → step s = .next t → StepRequested t t0 → IsLowestKey t0.host.keys k →
    ∃ u, step t = .next u ∧ u.runState = .run ∧ (u.reg x).toNat = k.val ∧ RegsExcept [x] s u ∧
      (s.params.resumeAdvance = .two → u.pc = s.pc + 4#16) ∧ (s.params.resumeAdvance = .zero → u.pc = s.pc + 2#16) ∧
      u.dt.toNat = s.dt.toNat - 1 ∧ u.st.toNat = s.st.toNat - 1
end

