-- ==== Sys2Proof/Laws/Decode.lean ====
section
/-! SUPPORT. The fields of an encoded word, format by format, and the decoder's answer for each major opcode. -/

namespace Sys2Proof

/-! ## Fields of the formats (spec/30_encoding.md R90, R91) -/

@[simp] theorem opField_fmtNNN (op : BitVec 4) (nnn : Addr12) : opField (fmtNNN op nnn) = op := by
  unfold opField fmtNNN
  rw [BitVec.extractLsb'_append_eq_of_le (by decide)]
  simp

@[simp] theorem nnnField_fmtNNN (op : BitVec 4) (nnn : Addr12) : nnnField (fmtNNN op nnn) = nnn := by
  unfold nnnField fmtNNN
  rw [BitVec.extractLsb'_append_eq_of_add_le (by decide)]
  simp

@[simp] theorem opField_fmtXKK (op : BitVec 4) (x : Reg) (kk : Byte) : opField (fmtXKK op x kk) = op := by
  unfold opField fmtXKK
  rw [BitVec.extractLsb'_append_eq_of_le (by decide), BitVec.extractLsb'_append_eq_of_le (by decide)]
  simp

@[simp] theorem xField_fmtXKK (op : BitVec 4) (x : Reg) (kk : Byte) : xField (fmtXKK op x kk) = x := by
  unfold xField fmtXKK
  rw [BitVec.extractLsb'_append_eq_of_le (by decide), BitVec.extractLsb'_append_eq_of_add_le (by decide)]
  simp [nibble]

@[simp] theorem kkField_fmtXKK (op : BitVec 4) (x : Reg) (kk : Byte) : kkField (fmtXKK op x kk) = kk := by
  unfold kkField fmtXKK
  rw [BitVec.extractLsb'_append_eq_of_add_le (by decide)]
  simp

@[simp] theorem opField_fmtXYN (op : BitVec 4) (x y : Reg) (n : BitVec 4) : opField (fmtXYN op x y n) = op := by
  unfold opField fmtXYN
  rw [BitVec.extractLsb'_append_eq_of_le (by decide), BitVec.extractLsb'_append_eq_of_le (by decide),
    BitVec.extractLsb'_append_eq_of_le (by decide)]
  simp

@[simp] theorem xField_fmtXYN (op : BitVec 4) (x y : Reg) (n : BitVec 4) : xField (fmtXYN op x y n) = x := by
  unfold xField fmtXYN
  rw [BitVec.extractLsb'_append_eq_of_le (by decide), BitVec.extractLsb'_append_eq_of_le (by decide),
    BitVec.extractLsb'_append_eq_of_add_le (by decide)]
  simp [nibble]

@[simp] theorem yField_fmtXYN (op : BitVec 4) (x y : Reg) (n : BitVec 4) : yField (fmtXYN op x y n) = y := by
  unfold yField fmtXYN
  rw [BitVec.extractLsb'_append_eq_of_le (by decide), BitVec.extractLsb'_append_eq_of_add_le (by decide)]
  simp [nibble]

@[simp] theorem nField_fmtXYN (op : BitVec 4) (x y : Reg) (n : BitVec 4) : nField (fmtXYN op x y n) = n.toFin := by
  unfold nField fmtXYN
  rw [BitVec.extractLsb'_append_eq_of_add_le (by decide)]
  simp

@[simp] theorem nibble_toFin (n : Count) : (nibble n).toFin = n := rfl

/-! ## A word is its fields -/

theorem opField_toNat (w : Word) : (opField w).toNat = w.toNat / 4096 % 16 := by
  simp only [opField, BitVec.extractLsb'_toNat, Nat.shiftRight_eq_div_pow]

theorem xField_val (w : Word) : (xField w).val = w.toNat / 256 % 16 := by
  simp only [xField, BitVec.val_toFin, BitVec.extractLsb'_toNat, Nat.shiftRight_eq_div_pow]

theorem yField_val (w : Word) : (yField w).val = w.toNat / 16 % 16 := by
  simp only [yField, BitVec.val_toFin, BitVec.extractLsb'_toNat, Nat.shiftRight_eq_div_pow]

theorem nField_val (w : Word) : (nField w).val = w.toNat % 16 := by
  simp [nField]

theorem kkField_toNat (w : Word) : (kkField w).toNat = w.toNat % 256 := by
  simp [kkField, BitVec.extractLsb'_toNat]

theorem nnnField_toNat (w : Word) : (nnnField w).toNat = w.toNat % 4096 := by
  simp [nnnField, BitVec.extractLsb'_toNat]

theorem word_eq_of_nnn {w w' : Word} (ho : opField w = opField w') (hn : nnnField w = nnnField w') : w = w' := by
  apply BitVec.eq_of_toNat_eq
  have a := congrArg BitVec.toNat ho
  have b := congrArg BitVec.toNat hn
  simp only [opField_toNat, nnnField_toNat] at a b
  omega

theorem word_eq_of_kk {w w' : Word} (ho : opField w = opField w') (hx : xField w = xField w') (hk : kkField w = kkField w') :
    w = w' := by
  apply BitVec.eq_of_toNat_eq
  have a := congrArg BitVec.toNat ho
  have b := congrArg Fin.val hx
  have c := congrArg BitVec.toNat hk
  simp only [opField_toNat, xField_val, kkField_toNat] at a b c
  omega

theorem word_eq_of_xyn {w w' : Word} (ho : opField w = opField w') (hx : xField w = xField w') (hy : yField w = yField w')
    (hn : nField w = nField w') : w = w' := by
  apply BitVec.eq_of_toNat_eq
  have a := congrArg BitVec.toNat ho
  have b := congrArg Fin.val hx
  have c := congrArg Fin.val hy
  have d := congrArg Fin.val hn
  simp only [opField_toNat, xField_val, yField_val, nField_val] at a b c d
  omega

/-! ## Words and bytes -/

/-- The bytes of a word give the word back. -/
theorem wordOfBytes_bytesOfWord (w : Word) : wordOfBytes (w.extractLsb' 8 8) (w.extractLsb' 0 8) = w := by
  unfold wordOfBytes
  rw [BitVec.extractLsb'_append_extractLsb'_eq_extractLsb' (by decide)]
  simp

/-- Decoding a word's bytes is decoding the word. -/
theorem decodeBytes_bytesOfWord (strict : Bool) (w : Word) (rest : List Byte) :
    decodeBytes strict (bytesOfWord w ++ rest) =
      match decode strict w with
      | .ok i => .ok (i, rest)
      | .error u => .error (.unassigned u) := by
  cases h : decode strict w <;>
    simp only [bytesOfWord, List.cons_append, List.nil_append, decodeBytes, wordOfBytes_bytesOfWord, h]

/-- The word of a low-priority 0nnn row is neither CLS nor RET. -/
theorem fmtNNN_zero_ne {nnn k : Addr12} (h : nnn ≠ k) : fmtNNN 0x0#4 nnn ≠ fmtNNN 0x0#4 k := fun e =>
  h (by simpa using congrArg nnnField e)

end Sys2Proof
end

