-- ==== Sys2Proof/Laws/State.lean ====
section
/-! SUPPORT. One lemma per field per update of State, true by rfl, and what reading a register or a byte gives after each. -/

namespace Sys2Proof.Machine

variable (s : State)

/-- Reading a byte depends on memory and the parameters alone. -/
theorem State.readByte_congr {s t : State} (hm : t.mem = s.mem) (hp : t.params = s.params) (n : Nat) :
    t.readByte n = s.readByte n := by
  simp only [State.readByte, hm, hp]

/-! ## setReg -/

@[simp] theorem State.setReg_mem (x : Reg) (b : Byte) : (s.setReg x b).mem = s.mem := rfl
@[simp] theorem State.setReg_v (x : Reg) (b : Byte) : (s.setReg x b).v = s.v.set x.val b := rfl
@[simp] theorem State.setReg_i (x : Reg) (b : Byte) : (s.setReg x b).i = s.i := rfl
@[simp] theorem State.setReg_pc (x : Reg) (b : Byte) : (s.setReg x b).pc = s.pc := rfl
@[simp] theorem State.setReg_stack (x : Reg) (b : Byte) : (s.setReg x b).stack = s.stack := rfl
@[simp] theorem State.setReg_sp (x : Reg) (b : Byte) : (s.setReg x b).sp = s.sp := rfl
@[simp] theorem State.setReg_dt (x : Reg) (b : Byte) : (s.setReg x b).dt = s.dt := rfl
@[simp] theorem State.setReg_st (x : Reg) (b : Byte) : (s.setReg x b).st = s.st := rfl
@[simp] theorem State.setReg_fb (x : Reg) (b : Byte) : (s.setReg x b).fb = s.fb := rfl
@[simp] theorem State.setReg_runState (x : Reg) (b : Byte) : (s.setReg x b).runState = s.runState := rfl
@[simp] theorem State.setReg_kwReg (x : Reg) (b : Byte) : (s.setReg x b).kwReg = s.kwReg := rfl
@[simp] theorem State.setReg_errCause (x : Reg) (b : Byte) : (s.setReg x b).errCause = s.errCause := rfl
@[simp] theorem State.setReg_errPc (x : Reg) (b : Byte) : (s.setReg x b).errPc = s.errPc := rfl
@[simp] theorem State.setReg_params (x : Reg) (b : Byte) : (s.setReg x b).params = s.params := rfl
@[simp] theorem State.setReg_host (x : Reg) (b : Byte) : (s.setReg x b).host = s.host := rfl
@[simp] theorem State.setReg_readByte (x : Reg) (b : Byte) (n : Nat) : (s.setReg x b).readByte n = s.readByte n := State.readByte_congr rfl rfl n

/-! ## setRegsFrom -/

@[simp] theorem State.setRegsFrom_mem (k : Nat) (bs : List Byte) : (s.setRegsFrom k bs).mem = s.mem := by
  induction bs generalizing s k with
  | nil => rfl
  | cons b bs ih => exact ih _ _

@[simp] theorem State.setRegsFrom_i (k : Nat) (bs : List Byte) : (s.setRegsFrom k bs).i = s.i := by
  induction bs generalizing s k with
  | nil => rfl
  | cons b bs ih => exact ih _ _

@[simp] theorem State.setRegsFrom_pc (k : Nat) (bs : List Byte) : (s.setRegsFrom k bs).pc = s.pc := by
  induction bs generalizing s k with
  | nil => rfl
  | cons b bs ih => exact ih _ _

@[simp] theorem State.setRegsFrom_stack (k : Nat) (bs : List Byte) : (s.setRegsFrom k bs).stack = s.stack := by
  induction bs generalizing s k with
  | nil => rfl
  | cons b bs ih => exact ih _ _

@[simp] theorem State.setRegsFrom_sp (k : Nat) (bs : List Byte) : (s.setRegsFrom k bs).sp = s.sp := by
  induction bs generalizing s k with
  | nil => rfl
  | cons b bs ih => exact ih _ _

@[simp] theorem State.setRegsFrom_dt (k : Nat) (bs : List Byte) : (s.setRegsFrom k bs).dt = s.dt := by
  induction bs generalizing s k with
  | nil => rfl
  | cons b bs ih => exact ih _ _

@[simp] theorem State.setRegsFrom_st (k : Nat) (bs : List Byte) : (s.setRegsFrom k bs).st = s.st := by
  induction bs generalizing s k with
  | nil => rfl
  | cons b bs ih => exact ih _ _

@[simp] theorem State.setRegsFrom_fb (k : Nat) (bs : List Byte) : (s.setRegsFrom k bs).fb = s.fb := by
  induction bs generalizing s k with
  | nil => rfl
  | cons b bs ih => exact ih _ _

@[simp] theorem State.setRegsFrom_runState (k : Nat) (bs : List Byte) : (s.setRegsFrom k bs).runState = s.runState := by
  induction bs generalizing s k with
  | nil => rfl
  | cons b bs ih => exact ih _ _

@[simp] theorem State.setRegsFrom_kwReg (k : Nat) (bs : List Byte) : (s.setRegsFrom k bs).kwReg = s.kwReg := by
  induction bs generalizing s k with
  | nil => rfl
  | cons b bs ih => exact ih _ _

@[simp] theorem State.setRegsFrom_errCause (k : Nat) (bs : List Byte) : (s.setRegsFrom k bs).errCause = s.errCause := by
  induction bs generalizing s k with
  | nil => rfl
  | cons b bs ih => exact ih _ _

@[simp] theorem State.setRegsFrom_errPc (k : Nat) (bs : List Byte) : (s.setRegsFrom k bs).errPc = s.errPc := by
  induction bs generalizing s k with
  | nil => rfl
  | cons b bs ih => exact ih _ _

@[simp] theorem State.setRegsFrom_params (k : Nat) (bs : List Byte) : (s.setRegsFrom k bs).params = s.params := by
  induction bs generalizing s k with
  | nil => rfl
  | cons b bs ih => exact ih _ _

@[simp] theorem State.setRegsFrom_host (k : Nat) (bs : List Byte) : (s.setRegsFrom k bs).host = s.host := by
  induction bs generalizing s k with
  | nil => rfl
  | cons b bs ih => exact ih _ _

@[simp] theorem State.setRegsFrom_readByte (k : Nat) (bs : List Byte) (n : Nat) : (s.setRegsFrom k bs).readByte n = s.readByte n :=
  State.readByte_congr (State.setRegsFrom_mem ..) (State.setRegsFrom_params ..) n

/-! ## setI -/

@[simp] theorem State.setI_mem (w : Word) : (s.setI w).mem = s.mem := rfl
@[simp] theorem State.setI_v (w : Word) : (s.setI w).v = s.v := rfl
@[simp] theorem State.setI_i (w : Word) : (s.setI w).i = w := rfl
@[simp] theorem State.setI_pc (w : Word) : (s.setI w).pc = s.pc := rfl
@[simp] theorem State.setI_stack (w : Word) : (s.setI w).stack = s.stack := rfl
@[simp] theorem State.setI_sp (w : Word) : (s.setI w).sp = s.sp := rfl
@[simp] theorem State.setI_dt (w : Word) : (s.setI w).dt = s.dt := rfl
@[simp] theorem State.setI_st (w : Word) : (s.setI w).st = s.st := rfl
@[simp] theorem State.setI_fb (w : Word) : (s.setI w).fb = s.fb := rfl
@[simp] theorem State.setI_runState (w : Word) : (s.setI w).runState = s.runState := rfl
@[simp] theorem State.setI_kwReg (w : Word) : (s.setI w).kwReg = s.kwReg := rfl
@[simp] theorem State.setI_errCause (w : Word) : (s.setI w).errCause = s.errCause := rfl
@[simp] theorem State.setI_errPc (w : Word) : (s.setI w).errPc = s.errPc := rfl
@[simp] theorem State.setI_params (w : Word) : (s.setI w).params = s.params := rfl
@[simp] theorem State.setI_host (w : Word) : (s.setI w).host = s.host := rfl
@[simp] theorem State.setI_reg (w : Word) (r : Reg) : (s.setI w).reg r = s.reg r := rfl
@[simp] theorem State.setI_readByte (w : Word) (n : Nat) : (s.setI w).readByte n = s.readByte n := State.readByte_congr rfl rfl n

/-! ## setPc -/

@[simp] theorem State.setPc_mem (w : Word) : (s.setPc w).mem = s.mem := rfl
@[simp] theorem State.setPc_v (w : Word) : (s.setPc w).v = s.v := rfl
@[simp] theorem State.setPc_i (w : Word) : (s.setPc w).i = s.i := rfl
@[simp] theorem State.setPc_pc (w : Word) : (s.setPc w).pc = w := rfl
@[simp] theorem State.setPc_stack (w : Word) : (s.setPc w).stack = s.stack := rfl
@[simp] theorem State.setPc_sp (w : Word) : (s.setPc w).sp = s.sp := rfl
@[simp] theorem State.setPc_dt (w : Word) : (s.setPc w).dt = s.dt := rfl
@[simp] theorem State.setPc_st (w : Word) : (s.setPc w).st = s.st := rfl
@[simp] theorem State.setPc_fb (w : Word) : (s.setPc w).fb = s.fb := rfl
@[simp] theorem State.setPc_runState (w : Word) : (s.setPc w).runState = s.runState := rfl
@[simp] theorem State.setPc_kwReg (w : Word) : (s.setPc w).kwReg = s.kwReg := rfl
@[simp] theorem State.setPc_errCause (w : Word) : (s.setPc w).errCause = s.errCause := rfl
@[simp] theorem State.setPc_errPc (w : Word) : (s.setPc w).errPc = s.errPc := rfl
@[simp] theorem State.setPc_params (w : Word) : (s.setPc w).params = s.params := rfl
@[simp] theorem State.setPc_host (w : Word) : (s.setPc w).host = s.host := rfl
@[simp] theorem State.setPc_reg (w : Word) (r : Reg) : (s.setPc w).reg r = s.reg r := rfl
@[simp] theorem State.setPc_readByte (w : Word) (n : Nat) : (s.setPc w).readByte n = s.readByte n := State.readByte_congr rfl rfl n

/-! ## setDt -/

@[simp] theorem State.setDt_mem (b : Byte) : (s.setDt b).mem = s.mem := rfl
@[simp] theorem State.setDt_v (b : Byte) : (s.setDt b).v = s.v := rfl
@[simp] theorem State.setDt_i (b : Byte) : (s.setDt b).i = s.i := rfl
@[simp] theorem State.setDt_pc (b : Byte) : (s.setDt b).pc = s.pc := rfl
@[simp] theorem State.setDt_stack (b : Byte) : (s.setDt b).stack = s.stack := rfl
@[simp] theorem State.setDt_sp (b : Byte) : (s.setDt b).sp = s.sp := rfl
@[simp] theorem State.setDt_dt (b : Byte) : (s.setDt b).dt = b := rfl
@[simp] theorem State.setDt_st (b : Byte) : (s.setDt b).st = s.st := rfl
@[simp] theorem State.setDt_fb (b : Byte) : (s.setDt b).fb = s.fb := rfl
@[simp] theorem State.setDt_runState (b : Byte) : (s.setDt b).runState = s.runState := rfl
@[simp] theorem State.setDt_kwReg (b : Byte) : (s.setDt b).kwReg = s.kwReg := rfl
@[simp] theorem State.setDt_errCause (b : Byte) : (s.setDt b).errCause = s.errCause := rfl
@[simp] theorem State.setDt_errPc (b : Byte) : (s.setDt b).errPc = s.errPc := rfl
@[simp] theorem State.setDt_params (b : Byte) : (s.setDt b).params = s.params := rfl
@[simp] theorem State.setDt_host (b : Byte) : (s.setDt b).host = s.host := rfl
@[simp] theorem State.setDt_reg (b : Byte) (r : Reg) : (s.setDt b).reg r = s.reg r := rfl
@[simp] theorem State.setDt_readByte (b : Byte) (n : Nat) : (s.setDt b).readByte n = s.readByte n := State.readByte_congr rfl rfl n

/-! ## setSt -/

@[simp] theorem State.setSt_mem (b : Byte) : (s.setSt b).mem = s.mem := rfl
@[simp] theorem State.setSt_v (b : Byte) : (s.setSt b).v = s.v := rfl
@[simp] theorem State.setSt_i (b : Byte) : (s.setSt b).i = s.i := rfl
@[simp] theorem State.setSt_pc (b : Byte) : (s.setSt b).pc = s.pc := rfl
@[simp] theorem State.setSt_stack (b : Byte) : (s.setSt b).stack = s.stack := rfl
@[simp] theorem State.setSt_sp (b : Byte) : (s.setSt b).sp = s.sp := rfl
@[simp] theorem State.setSt_dt (b : Byte) : (s.setSt b).dt = s.dt := rfl
@[simp] theorem State.setSt_st (b : Byte) : (s.setSt b).st = b := rfl
@[simp] theorem State.setSt_fb (b : Byte) : (s.setSt b).fb = s.fb := rfl
@[simp] theorem State.setSt_runState (b : Byte) : (s.setSt b).runState = s.runState := rfl
@[simp] theorem State.setSt_kwReg (b : Byte) : (s.setSt b).kwReg = s.kwReg := rfl
@[simp] theorem State.setSt_errCause (b : Byte) : (s.setSt b).errCause = s.errCause := rfl
@[simp] theorem State.setSt_errPc (b : Byte) : (s.setSt b).errPc = s.errPc := rfl
@[simp] theorem State.setSt_params (b : Byte) : (s.setSt b).params = s.params := rfl
@[simp] theorem State.setSt_host (b : Byte) : (s.setSt b).host = s.host := rfl
@[simp] theorem State.setSt_reg (b : Byte) (r : Reg) : (s.setSt b).reg r = s.reg r := rfl
@[simp] theorem State.setSt_readByte (b : Byte) (n : Nat) : (s.setSt b).readByte n = s.readByte n := State.readByte_congr rfl rfl n

/-! ## enterKeyWait -/

@[simp] theorem State.enterKeyWait_mem (x : Reg) : (s.enterKeyWait x).mem = s.mem := rfl
@[simp] theorem State.enterKeyWait_v (x : Reg) : (s.enterKeyWait x).v = s.v := rfl
@[simp] theorem State.enterKeyWait_i (x : Reg) : (s.enterKeyWait x).i = s.i := rfl
@[simp] theorem State.enterKeyWait_pc (x : Reg) : (s.enterKeyWait x).pc = s.pc := rfl
@[simp] theorem State.enterKeyWait_stack (x : Reg) : (s.enterKeyWait x).stack = s.stack := rfl
@[simp] theorem State.enterKeyWait_sp (x : Reg) : (s.enterKeyWait x).sp = s.sp := rfl
@[simp] theorem State.enterKeyWait_dt (x : Reg) : (s.enterKeyWait x).dt = s.dt := rfl
@[simp] theorem State.enterKeyWait_st (x : Reg) : (s.enterKeyWait x).st = s.st := rfl
@[simp] theorem State.enterKeyWait_fb (x : Reg) : (s.enterKeyWait x).fb = s.fb := rfl
@[simp] theorem State.enterKeyWait_runState (x : Reg) : (s.enterKeyWait x).runState = .waitKey := rfl
@[simp] theorem State.enterKeyWait_kwReg (x : Reg) : (s.enterKeyWait x).kwReg = x := rfl
@[simp] theorem State.enterKeyWait_errCause (x : Reg) : (s.enterKeyWait x).errCause = s.errCause := rfl
@[simp] theorem State.enterKeyWait_errPc (x : Reg) : (s.enterKeyWait x).errPc = s.errPc := rfl
@[simp] theorem State.enterKeyWait_params (x : Reg) : (s.enterKeyWait x).params = s.params := rfl
@[simp] theorem State.enterKeyWait_host (x : Reg) : (s.enterKeyWait x).host = s.host := rfl
@[simp] theorem State.enterKeyWait_reg (x : Reg) (r : Reg) : (s.enterKeyWait x).reg r = s.reg r := rfl
@[simp] theorem State.enterKeyWait_readByte (x : Reg) (n : Nat) : (s.enterKeyWait x).readByte n = s.readByte n := State.readByte_congr rfl rfl n

/-! ## raiseFatal -/

@[simp] theorem State.raiseFatal_mem (c : ErrCause) (a : Word) : (s.raiseFatal c a).mem = s.mem := rfl
@[simp] theorem State.raiseFatal_v (c : ErrCause) (a : Word) : (s.raiseFatal c a).v = s.v := rfl
@[simp] theorem State.raiseFatal_i (c : ErrCause) (a : Word) : (s.raiseFatal c a).i = s.i := rfl
@[simp] theorem State.raiseFatal_pc (c : ErrCause) (a : Word) : (s.raiseFatal c a).pc = s.pc := rfl
@[simp] theorem State.raiseFatal_stack (c : ErrCause) (a : Word) : (s.raiseFatal c a).stack = s.stack := rfl
@[simp] theorem State.raiseFatal_sp (c : ErrCause) (a : Word) : (s.raiseFatal c a).sp = s.sp := rfl
@[simp] theorem State.raiseFatal_dt (c : ErrCause) (a : Word) : (s.raiseFatal c a).dt = s.dt := rfl
@[simp] theorem State.raiseFatal_st (c : ErrCause) (a : Word) : (s.raiseFatal c a).st = s.st := rfl
@[simp] theorem State.raiseFatal_fb (c : ErrCause) (a : Word) : (s.raiseFatal c a).fb = s.fb := rfl
@[simp] theorem State.raiseFatal_runState (c : ErrCause) (a : Word) : (s.raiseFatal c a).runState = .halted := rfl
@[simp] theorem State.raiseFatal_kwReg (c : ErrCause) (a : Word) : (s.raiseFatal c a).kwReg = s.kwReg := rfl
@[simp] theorem State.raiseFatal_errCause (c : ErrCause) (a : Word) : (s.raiseFatal c a).errCause = c := rfl
@[simp] theorem State.raiseFatal_errPc (c : ErrCause) (a : Word) : (s.raiseFatal c a).errPc = a := rfl
@[simp] theorem State.raiseFatal_params (c : ErrCause) (a : Word) : (s.raiseFatal c a).params = s.params := rfl
@[simp] theorem State.raiseFatal_host (c : ErrCause) (a : Word) : (s.raiseFatal c a).host = s.host := rfl
@[simp] theorem State.raiseFatal_reg (c : ErrCause) (a : Word) (r : Reg) : (s.raiseFatal c a).reg r = s.reg r := rfl
@[simp] theorem State.raiseFatal_readByte (c : ErrCause) (a : Word) (n : Nat) : (s.raiseFatal c a).readByte n = s.readByte n := State.readByte_congr rfl rfl n

/-! ## fatal -/

@[simp] theorem State.fatal_mem (c : ErrCause) : (s.fatal c).mem = s.mem := rfl
@[simp] theorem State.fatal_v (c : ErrCause) : (s.fatal c).v = s.v := rfl
@[simp] theorem State.fatal_i (c : ErrCause) : (s.fatal c).i = s.i := rfl
@[simp] theorem State.fatal_pc (c : ErrCause) : (s.fatal c).pc = s.pc := rfl
@[simp] theorem State.fatal_stack (c : ErrCause) : (s.fatal c).stack = s.stack := rfl
@[simp] theorem State.fatal_sp (c : ErrCause) : (s.fatal c).sp = s.sp := rfl
@[simp] theorem State.fatal_dt (c : ErrCause) : (s.fatal c).dt = s.dt := rfl
@[simp] theorem State.fatal_st (c : ErrCause) : (s.fatal c).st = s.st := rfl
@[simp] theorem State.fatal_fb (c : ErrCause) : (s.fatal c).fb = s.fb := rfl
@[simp] theorem State.fatal_runState (c : ErrCause) : (s.fatal c).runState = .halted := rfl
@[simp] theorem State.fatal_kwReg (c : ErrCause) : (s.fatal c).kwReg = s.kwReg := rfl
@[simp] theorem State.fatal_errCause (c : ErrCause) : (s.fatal c).errCause = c := rfl
@[simp] theorem State.fatal_errPc (c : ErrCause) : (s.fatal c).errPc = s.pc - 2#16 := rfl
@[simp] theorem State.fatal_params (c : ErrCause) : (s.fatal c).params = s.params := rfl
@[simp] theorem State.fatal_host (c : ErrCause) : (s.fatal c).host = s.host := rfl
@[simp] theorem State.fatal_reg (c : ErrCause) (r : Reg) : (s.fatal c).reg r = s.reg r := rfl
@[simp] theorem State.fatal_readByte (c : ErrCause) (n : Nat) : (s.fatal c).readByte n = s.readByte n := State.readByte_congr rfl rfl n

/-! ## tick -/

@[simp] theorem State.tick_mem : s.tick.mem = s.mem := rfl
@[simp] theorem State.tick_v : s.tick.v = s.v := rfl
@[simp] theorem State.tick_i : s.tick.i = s.i := rfl
@[simp] theorem State.tick_pc : s.tick.pc = s.pc := rfl
@[simp] theorem State.tick_stack : s.tick.stack = s.stack := rfl
@[simp] theorem State.tick_sp : s.tick.sp = s.sp := rfl
@[simp] theorem State.tick_dt : s.tick.dt = tickTimer s.dt := rfl
@[simp] theorem State.tick_st : s.tick.st = tickTimer s.st := rfl
@[simp] theorem State.tick_fb : s.tick.fb = s.fb := rfl
@[simp] theorem State.tick_runState : s.tick.runState = s.runState := rfl
@[simp] theorem State.tick_kwReg : s.tick.kwReg = s.kwReg := rfl
@[simp] theorem State.tick_errCause : s.tick.errCause = s.errCause := rfl
@[simp] theorem State.tick_errPc : s.tick.errPc = s.errPc := rfl
@[simp] theorem State.tick_params : s.tick.params = s.params := rfl
@[simp] theorem State.tick_host : s.tick.host = s.host := rfl
@[simp] theorem State.tick_reg (r : Reg) : s.tick.reg r = s.reg r := rfl
@[simp] theorem State.tick_readByte (n : Nat) : s.tick.readByte n = s.readByte n := State.readByte_congr rfl rfl n

/-! ## loadFail -/

@[simp] theorem State.loadFail_mem : s.loadFail.mem = s.mem := rfl
@[simp] theorem State.loadFail_v : s.loadFail.v = s.v := rfl
@[simp] theorem State.loadFail_i : s.loadFail.i = s.i := rfl
@[simp] theorem State.loadFail_pc : s.loadFail.pc = s.pc := rfl
@[simp] theorem State.loadFail_stack : s.loadFail.stack = s.stack := rfl
@[simp] theorem State.loadFail_sp : s.loadFail.sp = s.sp := rfl
@[simp] theorem State.loadFail_dt : s.loadFail.dt = s.dt := rfl
@[simp] theorem State.loadFail_st : s.loadFail.st = s.st := rfl
@[simp] theorem State.loadFail_fb : s.loadFail.fb = s.fb := rfl
@[simp] theorem State.loadFail_runState : s.loadFail.runState = .loadFailed := rfl
@[simp] theorem State.loadFail_kwReg : s.loadFail.kwReg = s.kwReg := rfl
@[simp] theorem State.loadFail_errCause : s.loadFail.errCause = .outOfSpace := rfl
@[simp] theorem State.loadFail_errPc : s.loadFail.errPc = 0x0000#16 := rfl
@[simp] theorem State.loadFail_params : s.loadFail.params = s.params := rfl
@[simp] theorem State.loadFail_host : s.loadFail.host = s.host := rfl
@[simp] theorem State.loadFail_reg (r : Reg) : s.loadFail.reg r = s.reg r := rfl
@[simp] theorem State.loadFail_readByte (n : Nat) : s.loadFail.readByte n = s.readByte n := State.readByte_congr rfl rfl n

/-! ## sample -/

@[simp] theorem State.sample_mem (h : HostSide) (keys : BitVec 16) (rnd : Byte) : (s.sample h keys rnd).mem = s.mem := rfl
@[simp] theorem State.sample_v (h : HostSide) (keys : BitVec 16) (rnd : Byte) : (s.sample h keys rnd).v = s.v := rfl
@[simp] theorem State.sample_i (h : HostSide) (keys : BitVec 16) (rnd : Byte) : (s.sample h keys rnd).i = s.i := rfl
@[simp] theorem State.sample_pc (h : HostSide) (keys : BitVec 16) (rnd : Byte) : (s.sample h keys rnd).pc = s.pc := rfl
@[simp] theorem State.sample_stack (h : HostSide) (keys : BitVec 16) (rnd : Byte) : (s.sample h keys rnd).stack = s.stack := rfl
@[simp] theorem State.sample_sp (h : HostSide) (keys : BitVec 16) (rnd : Byte) : (s.sample h keys rnd).sp = s.sp := rfl
@[simp] theorem State.sample_dt (h : HostSide) (keys : BitVec 16) (rnd : Byte) : (s.sample h keys rnd).dt = s.dt := rfl
@[simp] theorem State.sample_st (h : HostSide) (keys : BitVec 16) (rnd : Byte) : (s.sample h keys rnd).st = s.st := rfl
@[simp] theorem State.sample_fb (h : HostSide) (keys : BitVec 16) (rnd : Byte) : (s.sample h keys rnd).fb = s.fb := rfl
@[simp] theorem State.sample_runState (h : HostSide) (keys : BitVec 16) (rnd : Byte) : (s.sample h keys rnd).runState = s.runState := rfl
@[simp] theorem State.sample_kwReg (h : HostSide) (keys : BitVec 16) (rnd : Byte) : (s.sample h keys rnd).kwReg = s.kwReg := rfl
@[simp] theorem State.sample_errCause (h : HostSide) (keys : BitVec 16) (rnd : Byte) : (s.sample h keys rnd).errCause = s.errCause := rfl
@[simp] theorem State.sample_errPc (h : HostSide) (keys : BitVec 16) (rnd : Byte) : (s.sample h keys rnd).errPc = s.errPc := rfl
@[simp] theorem State.sample_params (h : HostSide) (keys : BitVec 16) (rnd : Byte) : (s.sample h keys rnd).params = s.params := rfl
@[simp] theorem State.sample_host (h : HostSide) (keys : BitVec 16) (rnd : Byte) : (s.sample h keys rnd).host = { h with keys := keys, rnd := rnd } := rfl
@[simp] theorem State.sample_reg (h : HostSide) (keys : BitVec 16) (rnd : Byte) (r : Reg) : (s.sample h keys rnd).reg r = s.reg r := rfl
@[simp] theorem State.sample_readByte (h : HostSide) (keys : BitVec 16) (rnd : Byte) (n : Nat) : (s.sample h keys rnd).readByte n = s.readByte n := State.readByte_congr rfl rfl n

/-! ## Registers -/

theorem State.setReg_reg (x : Reg) (b : Byte) (r : Reg) : (s.setReg x b).reg r = if r = x then b else s.reg r := by
  simp only [State.reg, State.setReg, Vector.getElem_set]
  by_cases h : r = x
  · simp [h]
  · have : ¬ x.val = r.val := fun e => h (Fin.ext e.symm)
    simp [h, this]

@[simp] theorem State.setReg_reg_same (x : Reg) (b : Byte) : (s.setReg x b).reg x = b := by simp [State.setReg_reg]

theorem State.setReg_reg_other (x : Reg) (b : Byte) (r : Reg) (h : r ≠ x) : (s.setReg x b).reg r = s.reg r := by
  simp [State.setReg_reg, h]

theorem State.setRegThenFlag_reg (x : Reg) (b f : Byte) (r : Reg) :
    (s.setRegThenFlag x b f).reg r = if r = 15 then f else if r = x then b else s.reg r := by
  simp [State.setRegThenFlag, State.setReg_reg]

/-- The registers after a run of register writes: the written byte inside the run, the old one outside it. -/
theorem State.setRegsFrom_reg (k : Nat) (bs : List Byte) (hk : k + bs.length ≤ 16) (r : Reg) :
    (s.setRegsFrom k bs).reg r = if h : k ≤ r.val ∧ r.val - k < bs.length then bs[r.val - k]'h.2 else s.reg r := by
  induction bs generalizing s k with
  | nil => simp [State.setRegsFrom]
  | cons b bs ih =>
    simp only [List.length_cons] at hk
    simp only [State.setRegsFrom]
    rw [ih (s.setReg (Fin.ofNat 16 k) b) (k + 1) (by omega), State.setReg_reg]
    have hv : (Fin.ofNat 16 k).val = k := Nat.mod_eq_of_lt (by omega)
    by_cases e : r = Fin.ofNat 16 k
    · subst e
      have h0 : (Fin.ofNat 16 k).val - k = 0 := by omega
      rw [dif_neg (by omega), if_pos rfl, dif_pos ⟨by omega, by rw [h0]; exact Nat.succ_pos _⟩]
      simp only [h0, List.getElem_cons_zero]
    · have hne : r.val ≠ k := fun h => e (Fin.ext (h.trans hv.symm))
      by_cases hlt : k < r.val
      · obtain ⟨j, hj⟩ : ∃ j, r.val = k + 1 + j := ⟨r.val - k - 1, by omega⟩
        have e1 : r.val - (k + 1) = j := by omega
        have e2 : r.val - k = j + 1 := by omega
        simp only [e1, e2, List.length_cons, List.getElem_cons_succ]
        by_cases hj' : j < bs.length
        · rw [dif_pos ⟨by omega, hj'⟩, dif_pos ⟨by omega, by omega⟩]
        · rw [dif_neg (by omega), dif_neg (by omega), if_neg e]
      · rw [dif_neg (by omega), dif_neg (by omega), if_neg e]

@[simp] theorem State.regsUpTo_length (x : Reg) : (s.regsUpTo x).length = x.val + 1 := by
  simp [State.regsUpTo]

theorem State.regsUpTo_getElem (x : Reg) (k : Nat) (h : k < (s.regsUpTo x).length) :
    (s.regsUpTo x)[k] = s.reg ⟨k, by simp at h; omega⟩ := by
  simp [State.regsUpTo, State.reg]

@[simp] theorem State.skipIf_mem (c : Bool) : (s.skipIf c).mem = s.mem := by cases c <;> rfl
@[simp] theorem State.skipIf_v (c : Bool) : (s.skipIf c).v = s.v := by cases c <;> rfl
@[simp] theorem State.skipIf_i (c : Bool) : (s.skipIf c).i = s.i := by cases c <;> rfl
@[simp] theorem State.skipIf_stack (c : Bool) : (s.skipIf c).stack = s.stack := by cases c <;> rfl
@[simp] theorem State.skipIf_sp (c : Bool) : (s.skipIf c).sp = s.sp := by cases c <;> rfl
@[simp] theorem State.skipIf_dt (c : Bool) : (s.skipIf c).dt = s.dt := by cases c <;> rfl
@[simp] theorem State.skipIf_st (c : Bool) : (s.skipIf c).st = s.st := by cases c <;> rfl
@[simp] theorem State.skipIf_fb (c : Bool) : (s.skipIf c).fb = s.fb := by cases c <;> rfl
@[simp] theorem State.skipIf_runState (c : Bool) : (s.skipIf c).runState = s.runState := by cases c <;> rfl
@[simp] theorem State.skipIf_kwReg (c : Bool) : (s.skipIf c).kwReg = s.kwReg := by cases c <;> rfl
@[simp] theorem State.skipIf_errCause (c : Bool) : (s.skipIf c).errCause = s.errCause := by cases c <;> rfl
@[simp] theorem State.skipIf_errPc (c : Bool) : (s.skipIf c).errPc = s.errPc := by cases c <;> rfl
@[simp] theorem State.skipIf_params (c : Bool) : (s.skipIf c).params = s.params := by cases c <;> rfl
@[simp] theorem State.skipIf_host (c : Bool) : (s.skipIf c).host = s.host := by cases c <;> rfl
@[simp] theorem State.skipIf_reg (c : Bool) (r : Reg) : (s.skipIf c).reg r = s.reg r := by cases c <;> rfl
@[simp] theorem State.skipIf_readByte (c : Bool) (n : Nat) : (s.skipIf c).readByte n = s.readByte n :=
  State.readByte_congr (State.skipIf_mem ..) (State.skipIf_params ..) n
theorem State.skipIf_pc (c : Bool) : (s.skipIf c).pc = if c then s.pc + 2#16 else s.pc := by cases c <;> rfl

end Sys2Proof.Machine
end

