-- ==== Sys2Proof/Laws/Display.lean ====
section
/-! SUPPORT. The laws of the framebuffer: flipping one pixel, and what a drawing does to the pixels and to the collision flag. -/

namespace Sys2Proof.Machine

/-! ## Pixels -/

theorem Framebuffer.flip_pixel (fb : Framebuffer) (r r' : Fin 32) (c c' : Fin 64) :
    (fb.flip r c).pixel r' c' = if r' = r ∧ c' = c then !fb.pixel r' c' else fb.pixel r' c' := by
  unfold Framebuffer.flip Framebuffer.pixel
  rw [Vector.getElem_set]
  by_cases hr : r' = r
  · subst hr
    rw [if_pos rfl, BitVec.getLsbD_xor, BitVec.getLsbD_twoPow]
    by_cases hc : c' = c
    · subst hc
      have : 63 - c'.val < 64 := by omega
      simp [this]
    · have : ¬ 63 - c.val = 63 - c'.val := fun e => hc (Fin.ext (by omega))
      simp [hc, this]
  · have : ¬ r.val = r'.val := fun e => hr (Fin.ext e.symm)
    rw [if_neg this, if_neg (fun e => hr e.1)]

/-- Framebuffers with the same pixels are the same data. -/
theorem Framebuffer.ext_pixel {fb fb' : Framebuffer} (h : ∀ r c, fb.pixel r c = fb'.pixel r c) : fb = fb' := by
  apply Vector.ext
  intro i hi
  apply BitVec.eq_of_getLsbD_eq
  intro j hj
  have := h ⟨i, hi⟩ ⟨63 - j, by omega⟩
  simp only [Framebuffer.pixel] at this
  have e : 63 - (63 - j) = j := by omega
  rwa [e] at this

@[simp] theorem Framebuffer.clear_pixel (r : Fin 32) (c : Fin 64) : Framebuffer.clear.pixel r c = false := by
  simp [Framebuffer.clear, Framebuffer.pixel]

/-! ## Drawings -/

/-- From drawing d to d', exactly the pixels of S are flipped, and a collision is added if one of them was set. -/
def Drawing.Flips (d d' : Drawing) (S : Fin 32 → Fin 64 → Prop) : Prop :=
  (∀ r c, S r c → d'.1.pixel r c = !d.1.pixel r c) ∧ (∀ r c, ¬ S r c → d'.1.pixel r c = d.1.pixel r c) ∧
  (d'.2 = true ↔ d.2 = true ∨ ∃ r c, S r c ∧ d.1.pixel r c = true)

theorem Drawing.Flips.nothing (d : Drawing) {S : Fin 32 → Fin 64 → Prop} (h : ∀ r c, ¬ S r c) : Drawing.Flips d d S :=
  ⟨fun r c hs => absurd hs (h r c), fun _ _ _ => rfl, by simp [h]⟩

theorem Drawing.Flips.trans {d d' d'' : Drawing} {S T U : Fin 32 → Fin 64 → Prop} (h : Drawing.Flips d d' S)
    (h' : Drawing.Flips d' d'' T) (hd : ∀ r c, S r c → ¬ T r c) (hu : ∀ r c, U r c ↔ S r c ∨ T r c) : Drawing.Flips d d'' U := by
  refine ⟨fun r c hs => ?_, fun r c hs => ?_, ?_⟩
  · rcases (hu r c).1 hs with hs | ht
    · rw [h'.2.1 r c (hd r c hs), h.1 r c hs]
    · rw [h'.1 r c ht, h.2.1 r c (fun e => hd r c e ht)]
  · have hn := fun e => hs ((hu r c).2 e)
    rw [h'.2.1 r c (fun e => hn (.inr e)), h.2.1 r c (fun e => hn (.inl e))]
  · rw [h'.2.2, h.2.2]
    constructor
    · rintro ((h0 | ⟨r, c, hs, hp⟩) | ⟨r, c, ht, hp⟩)
      · exact .inl h0
      · exact .inr ⟨r, c, (hu r c).2 (.inl hs), hp⟩
      · rw [h.2.1 r c (fun e => hd r c e ht)] at hp
        exact .inr ⟨r, c, (hu r c).2 (.inr ht), hp⟩
    · rintro (h0 | ⟨r, c, hs, hp⟩)
      · exact .inl (.inl h0)
      · rcases (hu r c).1 hs with hs | ht
        · exact .inl (.inr ⟨r, c, hs, hp⟩)
        · rw [← h.2.1 r c (fun e => hd r c e ht)] at hp
          exact .inr ⟨r, c, ht, hp⟩

theorem Drawing.pixel_flips (d : Drawing) (r : Fin 32) (c : Fin 64) :
    Drawing.Flips d (d.pixel r c) (fun r' c' => r' = r ∧ c' = c) := by
  refine ⟨fun r' c' h => ?_, fun r' c' h => ?_, ?_⟩
  · simp only [Drawing.pixel, Framebuffer.flip_pixel, if_pos h]
  · simp only [Drawing.pixel, Framebuffer.flip_pixel, if_neg h]
  · simp [Drawing.pixel]

/-- The pixels the bits `7 - j`, j in `js`, of a sprite byte reach. -/
def Drawing.RowHits (x0 : Nat) (row : Fin 32) (b : Byte) (js : List Nat) (r : Fin 32) (c : Fin 64) : Prop :=
  r = row ∧ ∃ j ∈ js, c.val = (x0 + j) % 64 ∧ b.getLsbD (7 - j) = true

theorem Drawing.bits_flips (d : Drawing) (x0 : Nat) (row : Fin 32) (b : Byte) (js : List Nat) (hn : js.Nodup)
    (hlt : ∀ j ∈ js, j < 8) : Drawing.Flips d (d.bits x0 row b js) (Drawing.RowHits x0 row b js) := by
  induction js generalizing d with
  | nil => exact Drawing.Flips.nothing d (by simp [Drawing.RowHits])
  | cons j js ih =>
    have hn' := List.nodup_cons.1 hn
    have hlt' := List.forall_mem_cons.1 hlt
    simp only [Drawing.bits]
    by_cases hb : b.getLsbD (7 - j) = true
    · rw [if_pos hb]
      refine (Drawing.pixel_flips d row _).trans (ih _ hn'.2 hlt'.2) ?_ ?_
      · rintro r c ⟨_, rfl⟩ ⟨_, j', hj', hc, _⟩
        have h1 := hlt'.2 j' hj'
        have h2 := hlt'.1
        have : j ≠ j' := fun e => hn'.1 (e ▸ hj')
        simp only [Fin.ofNat] at hc
        omega
      · intro r c
        simp only [Drawing.RowHits, List.mem_cons, exists_eq_or_imp, hb, and_true, Fin.ext_iff, Fin.ofNat]
        tauto
    · rw [if_neg hb]
      have h0 := ih d hn'.2 hlt'.2
      have e : Drawing.RowHits x0 row b (j :: js) = Drawing.RowHits x0 row b js := by
        funext r c
        simp only [Drawing.RowHits, List.mem_cons, exists_eq_or_imp, hb]
        simp
      rw [e]
      exact h0

/-- The pixels a sprite reaches: bit 7 − j of row k lands in row (y0 + k) mod 32, column (x0 + j) mod 64. -/
def Drawing.SpriteHits (x0 y0 : Nat) (bs : List Byte) (r : Fin 32) (c : Fin 64) : Prop :=
  ∃ k j : Nat, ∃ h : k < bs.length, j < 8 ∧ r.val = (y0 + k) % 32 ∧ c.val = (x0 + j) % 64 ∧ bs[k].getLsbD (7 - j) = true

theorem Drawing.rows_flips (d : Drawing) (x0 y0 : Nat) (bs : List Byte) (hl : bs.length ≤ 32) :
    Drawing.Flips d (d.rows x0 y0 bs) (Drawing.SpriteHits x0 y0 bs) := by
  induction bs generalizing d y0 with
  | nil => exact Drawing.Flips.nothing d (by simp [Drawing.SpriteHits])
  | cons b bs ih =>
    simp only [List.length_cons] at hl
    simp only [Drawing.rows]
    refine (Drawing.bits_flips d x0 _ b (List.range 8) List.nodup_range (by simp)).trans (ih _ _ (by omega)) ?_ ?_
    · rintro r c ⟨rfl, -⟩ ⟨k, j, hk, -, hr, -⟩
      simp only [Fin.ofNat] at hr
      omega
    · intro r c
      simp only [Drawing.RowHits, Drawing.SpriteHits, List.mem_range, Fin.ext_iff, Fin.ofNat, List.length_cons]
      constructor
      · rintro ⟨k, j, hk, hj, hr, hc, hb⟩
        cases k with
        | zero => exact .inl ⟨by simpa using hr, j, hj, hc, by simpa using hb⟩
        | succ k => exact .inr ⟨k, j, by omega, hj, by rw [hr]; congr 1; omega, hc, by simpa using hb⟩
      · rintro (⟨hr, j, hj, hc, hb⟩ | ⟨k, j, hk, hj, hr, hc, hb⟩)
        · exact ⟨0, j, by omega, hj, by simpa using hr, hc, by simpa using hb⟩
        · exact ⟨k + 1, j, by omega, hj, by rw [hr]; congr 1; omega, hc, by simpa using hb⟩

/-- All that drawing a sprite does. -/
theorem Framebuffer.draw_flips (fb : Framebuffer) (x0 y0 : Nat) (bs : List Byte) (hl : bs.length ≤ 32) :
    Drawing.Flips (fb, false) (fb.draw x0 y0 bs) (Drawing.SpriteHits x0 y0 bs) :=
  Drawing.rows_flips (fb, false) x0 y0 bs hl

end Sys2Proof.Machine
end

