-- ==== Sys2Proof/Laws/Memory.lean ====
section
/-! SUPPORT. The laws of memory: read after write, the canonical form kept by every operation, ranges. -/

namespace Sys2Proof.Machine

variable {p : Params} {m : Memory}

/-! ## The canonical form -/

theorem Memory.wf_nil (p : Params) : Memory.wf p [] := by simp [Memory.wf]

theorem Memory.wf_tail {c : Host.Cell} (h : Memory.wf p (c :: m)) : Memory.wf p m :=
  ⟨(List.pairwise_cons.1 h.1).2, fun d hd => h.2 d (List.mem_cons_of_mem _ hd)⟩

theorem Memory.head_lt {c d : Host.Cell} (h : Memory.wf p (c :: m)) (hd : d ∈ m) : c.1 < d.1 :=
  (List.pairwise_cons.1 h.1).1 d hd

theorem Memory.wf_cons {c : Host.Cell} :
    Memory.wf p (c :: m) ↔ (∀ d ∈ m, c.1 < d.1) ∧ c.1 < Config.memSize ∧ c.2 ≠ blankByte p c.1 ∧ Memory.wf p m := by
  simp only [Memory.wf, List.pairwise_cons, List.forall_mem_cons]
  tauto

/-- An address below every listed one is not listed. -/
theorem Memory.lookup_eq_none_of_lt {a : Nat} (h : ∀ d ∈ m, a < d.1) : m.lookup a = none := by
  induction m with
  | nil => rfl
  | cons c m ih =>
    have hc := h c (List.mem_cons_self ..)
    obtain ⟨a', b'⟩ := c
    simp only [Memory.lookup]
    rw [if_neg (by simp at hc; omega)]
    exact ih fun d hd => h d (List.mem_cons_of_mem _ hd)

theorem Memory.mem_of_lookup {a : Nat} {b : Byte} (h : m.lookup a = some b) : (a, b) ∈ m := by
  induction m with
  | nil => simp [Memory.lookup] at h
  | cons c m ih =>
    obtain ⟨a', b'⟩ := c
    simp only [Memory.lookup] at h
    split at h
    · next e => cases h; simp [e]
    · exact List.mem_cons_of_mem _ (ih h)

theorem Memory.cons?_lookup {a : Nat} {b : Option Byte} (a' : Nat) (h : ∀ d ∈ m, a < d.1) :
    (Memory.cons? a b m).lookup a' = if a' = a then b else m.lookup a' := by
  cases b with
  | none =>
    split
    · next e => subst e; exact Memory.lookup_eq_none_of_lt h
    · rfl
  | some b =>
    simp only [Memory.cons?, Memory.lookup, eq_comm (a := a)]

/-- The listing after `put`. -/
theorem Memory.put_lookup (h : Memory.wf p m) (a : Nat) (b : Option Byte) (a' : Nat) :
    (m.put a b).lookup a' = if a' = a then b else m.lookup a' := by
  induction m with
  | nil => simpa [Memory.put] using Memory.cons?_lookup (m := []) (b := b) (a := a) a' (by simp)
  | cons c m ih =>
    obtain ⟨a0, b0⟩ := c
    have hlt := fun d hd => Memory.head_lt h (d := d) hd
    simp only [Memory.put]
    split
    · next hl =>
      refine Memory.cons?_lookup a' ?_
      simp only [List.forall_mem_cons]
      exact ⟨hl, fun d hd => lt_trans hl (hlt d hd)⟩
    · split
      · next e =>
        subst e
        rw [Memory.cons?_lookup a' hlt]
        simp only [Memory.lookup]
        split
        · rfl
        · next ne => rw [if_neg (fun e => ne e.symm)]
      · next ne =>
        simp only [Memory.lookup, ih (Memory.wf_tail h)]
        split
        · next e => rw [if_neg (by omega)]
        · rfl

theorem Memory.mem_put {a : Nat} {b : Option Byte} {d : Host.Cell} (h : d ∈ m.put a b) : d ∈ m ∨ b = some d.2 ∧ d.1 = a := by
  have key : ∀ {m' : Memory}, d ∈ Memory.cons? a b m' → d ∈ m' ∨ b = some d.2 ∧ d.1 = a := by
    intro m' hm
    cases b with
    | none => exact .inl hm
    | some b =>
      rcases List.mem_cons.1 hm with e | hm
      · right; subst e; simp
      · exact .inl hm
  induction m with
  | nil => simpa using key h
  | cons c m ih =>
    simp only [Memory.put] at h
    split at h
    · exact key h
    · split at h
      · rcases key h with hm | hm
        · exact .inl (List.mem_cons_of_mem _ hm)
        · exact .inr hm
      · rcases List.mem_cons.1 h with e | hm
        · exact .inl (e ▸ List.mem_cons_self ..)
        · rcases ih hm with hm | hm
          · exact .inl (List.mem_cons_of_mem _ hm)
          · exact .inr hm

theorem Memory.wf_put (h : Memory.wf p m) {a : Nat} {b : Option Byte} (ha : a < Config.memSize)
    (hb : ∀ x, b = some x → x ≠ blankByte p a) : Memory.wf p (m.put a b) := by
  have key : ∀ {m' : Memory}, Memory.wf p m' → (∀ d ∈ m', a < d.1) → Memory.wf p (Memory.cons? a b m') := by
    intro m' hm hlt
    cases b with
    | none => exact hm
    | some b => exact Memory.wf_cons.2 ⟨hlt, ha, hb b rfl, hm⟩
  induction m with
  | nil => exact key h (by simp)
  | cons c m ih =>
    have hlt := fun d hd => Memory.head_lt h (d := d) hd
    simp only [Memory.put]
    split
    · next hl => exact key h (by simp only [List.forall_mem_cons]; exact ⟨hl, fun d hd => lt_trans hl (hlt d hd)⟩)
    · split
      · next e => exact key (Memory.wf_tail h) (by rw [e]; exact hlt)
      · have hc := Memory.wf_cons.1 h
        refine Memory.wf_cons.2 ⟨fun d hd => ?_, hc.2.1, hc.2.2.1, ih hc.2.2.2⟩
        rcases Memory.mem_put hd with hm | hm
        · exact hlt d hm
        · rw [hm.2]; omega

/-! ## Reading and writing -/

/-- Read after write. -/
theorem Memory.read_write (h : Memory.wf p m) (a : Nat) (b : Byte) (a' : Nat) :
    (m.write p a b).read p a' = if a' = a then b else m.read p a' := by
  simp only [Memory.read, Memory.write, Memory.put_lookup h]
  split
  · next e =>
    subst e
    split
    · next e => simp [e]
    · rfl
  · rfl

/-- Every write keeps the canonical form. -/
theorem Memory.wf_write (h : Memory.wf p m) {a : Nat} (b : Byte) (ha : a < Config.memSize) : Memory.wf p (m.write p a b) := by
  refine Memory.wf_put h ha fun x hx => ?_
  split at hx
  · cases hx
  · cases hx; assumption

theorem Memory.wf_writeAll (h : Memory.wf p m) {a : Nat} (bs : List Byte) (ha : a + bs.length ≤ Config.memSize) :
    Memory.wf p (m.writeAll p a bs) := by
  induction bs generalizing m a with
  | nil => exact h
  | cons b bs ih =>
    simp only [List.length_cons] at ha
    exact ih (Memory.wf_write h b (by omega)) (by omega)

/-- A byte after a run of writes: the written byte inside the run, the old one outside it. -/
theorem Memory.read_writeAll (h : Memory.wf p m) {a : Nat} (bs : List Byte) (ha : a + bs.length ≤ Config.memSize) (a' : Nat) :
    (m.writeAll p a bs).read p a' =
      if h : a ≤ a' ∧ a' - a < bs.length then bs[a' - a]'h.2 else m.read p a' := by
  induction bs generalizing m a with
  | nil => simp [Memory.writeAll]
  | cons b bs ih =>
    simp only [List.length_cons] at ha
    simp only [Memory.writeAll]
    rw [ih (Memory.wf_write h b (by omega)) (by omega), Memory.read_write h]
    by_cases e : a' = a
    · subst e; simp
    · by_cases hlt : a < a'
      · obtain ⟨k, rfl⟩ : ∃ k, a' = a + 1 + k := ⟨a' - a - 1, by omega⟩
        have e1 : a + 1 + k - (a + 1) = k := by omega
        have e2 : a + 1 + k - a = k + 1 := by omega
        simp only [e1, e2, List.length_cons, List.getElem_cons_succ]
        by_cases hk : k < bs.length
        · rw [dif_pos ⟨by omega, hk⟩, dif_pos ⟨by omega, by omega⟩]
        · rw [dif_neg (by omega), dif_neg (by omega), if_neg (by omega)]
      · rw [dif_neg (by omega), dif_neg (by omega), if_neg e]

/-! ## Ranges -/

theorem rangeOk_iff {a n : Nat} : rangeOk a n = true ↔ n = 0 ∨ a + n ≤ Config.memSize := by
  simp only [rangeOk, Bool.or_eq_true, beq_iff_eq, decide_eq_true_eq, Config.memSize]
  omega

/-- All that `loadRange` can do. -/
theorem State.loadRange_eq (s : State) (a n : Nat) :
    s.loadRange a n = if n = 0 ∨ a + n ≤ Config.memSize then some ((List.range n).map fun k => s.readByte (a + k)) else none := by
  simp only [State.loadRange]
  by_cases h : rangeOk a n = true
  · rw [if_pos h, if_pos (rangeOk_iff.1 h)]
  · rw [if_neg h, if_neg (fun e => h (rangeOk_iff.2 e))]

/-- All that `storeRange` can do. -/
theorem State.storeRange_eq (s : State) (a : Nat) (bs : List Byte) :
    s.storeRange a bs = if bs.length = 0 ∨ a + bs.length ≤ Config.memSize
      then some { s with mem := s.mem.writeAll s.params a bs } else none := by
  simp only [State.storeRange]
  by_cases h : rangeOk a bs.length = true
  · rw [if_pos h, if_pos (rangeOk_iff.1 h)]
  · rw [if_neg h, if_neg (fun e => h (rangeOk_iff.2 e))]

/-- A stored range read back, and every other byte as before. -/
theorem State.storeRange_readByte {s t : State} (h : Memory.wf s.params s.mem) {a : Nat} {bs : List Byte}
    (hst : s.storeRange a bs = some t) (a' : Nat) :
    t.readByte a' = if h : a ≤ a' ∧ a' - a < bs.length then bs[a' - a]'h.2 else s.readByte a' := by
  rw [State.storeRange_eq] at hst
  split at hst
  · next hr =>
    cases hst
    rcases hr with h0 | hr
    · have : bs = [] := List.eq_nil_of_length_eq_zero h0
      subst this
      simp [State.readByte, Memory.writeAll]
    · exact Memory.read_writeAll h bs hr a'
  · cases hst

end Sys2Proof.Machine
end

