-- ==== Sys2Proof/Laws/Ops.lean ====
section
/-! SUPPORT. What the shared operations do, each said once: the call stack, a fatal error, key selection, and when an
instruction's error condition is met. -/

namespace Sys2Proof.Machine

variable {s t : State}

/-! ## The call stack -/

theorem State.push_of_lt (s : State) (w : Word) (h : s.sp.val < 16) :
    s.push w = some { s with stack := s.stack.set s.sp.val w, sp := ⟨s.sp.val + 1, Nat.succ_lt_succ h⟩ } := by
  simp only [State.push, dif_pos h]

theorem State.push_full (s : State) (w : Word) (h : s.sp.val = 16) : s.push w = none := by
  simp only [State.push, h, lt_irrefl, dite_false]

theorem State.pop_of_pos (s : State) (h : 0 < s.sp.val) :
    s.pop = some (s.stack[s.sp.val - 1]'(by omega), { s with sp := ⟨s.sp.val - 1, by omega⟩ }) := by
  simp only [State.pop, dif_pos h]

theorem State.pop_empty (s : State) (h : s.sp.val = 0) : s.pop = none := by
  simp only [State.pop, h, lt_irrefl, dite_false]

/-! ## Key selection -/

theorem State.keySel_of_lt (s : State) (x : Reg) (k : Key) (h : (s.reg x).toNat = k.val) : s.keySel x = .key k := by
  have hk : (s.reg x).toNat < 16 := by omega
  simp only [State.keySel, dif_pos hk]
  congr 1
  exact Fin.ext h

theorem State.keySel_of_gt (s : State) (x : Reg) (h : 15 < (s.reg x).toNat) :
    s.keySel x =
      match s.params.keyRange with
      | .fatal      => .outOfRange
      | .notPressed => .noKey
      | .lowNibble  => .key (Fin.ofNat 16 (s.reg x).toNat) := by
  have hk : ¬ (s.reg x).toNat < 16 := by omega
  cases hp : s.params.keyRange <;> simp only [State.keySel, dif_neg hk, hp]

/-! ## Errors -/

/-- A fatal error leaves exactly what `HaltedBy` says. -/
theorem haltedBy_fatal (s : State) (c : ErrCause) : HaltedBy c s (s.fatal c) := by
  refine ⟨⟨rfl, rfl, fun e he => ?_⟩, rfl, rfl, rfl⟩
  cases e <;> simp_all [Element.Same]

/-- An instruction whose error condition holds takes that error. -/
theorem exec_of_errorOf {i : Instr} {c : ErrCause} (h : errorOf i s = some c) : exec i s = .next (s.fatal c) := by
  cases i <;> simp only [errorOf, reduceCtorEq] at h <;> (split at h <;> simp only [Option.some.injEq, reduceCtorEq] at h; subst h)
  case ret hc => simp only [exec, execRet, State.pop_empty s hc.1, hc.2]
  case call hc => simp only [exec, execCall, State.push_full s _ hc]
  case drw n hc =>
    simp only [exec, execDrw, State.loadRange_eq]
    rw [if_neg (by simp only [Config.memSize]; omega)]
  case skp x hc => simp only [exec, execSkp, State.keySel_of_gt s x hc.1, hc.2]
  case sknp x hc => simp only [exec, execSknp, State.keySel_of_gt s x hc.1, hc.2]
  case ldB hc =>
    simp only [exec, execLdB, State.storeRange_eq]
    rw [if_neg (by simp only [bcdDigits, List.length_cons, List.length_nil, Config.memSize]; omega)]
  case storeRegs hc =>
    simp only [exec, execStoreRegs, State.storeRange_eq]
    rw [if_neg (by simp only [State.regsUpTo_length, Config.memSize]; omega)]
  case loadRegs hc =>
    simp only [exec, execLoadRegs, State.loadRange_eq]
    rw [if_neg (by simp only [Config.memSize]; omega)]

/-! ## Frames -/

theorem unchangedExcept_refl (s : State) (es : List Element) : UnchangedExcept es s s :=
  ⟨rfl, rfl, fun e _ => by cases e <;> simp [Element.Same]⟩

/-- A register write changes registers alone. -/
theorem unchangedExcept_setReg (s : State) (x : Reg) (b : Byte) : UnchangedExcept [.v] s (s.setReg x b) :=
  ⟨rfl, rfl, fun e he => by cases e <;> simp_all [Element.Same]⟩

theorem unchangedExcept_setRegThenFlag (s : State) (x : Reg) (b f : Byte) :
    UnchangedExcept [.v] s (s.setRegThenFlag x b f) :=
  ⟨rfl, rfl, fun e he => by cases e <;> simp_all [Element.Same, State.setRegThenFlag]⟩

theorem unchangedExcept_setPc (s : State) (w : Word) : UnchangedExcept [.pc] s (s.setPc w) :=
  ⟨rfl, rfl, fun e he => by cases e <;> simp_all [Element.Same]⟩

theorem unchangedExcept_skipIf (s : State) (c : Bool) : UnchangedExcept [.pc] s (s.skipIf c) := by
  cases c
  · exact unchangedExcept_refl s _
  · exact unchangedExcept_setPc s _

theorem unchangedExcept_setI (s : State) (w : Word) : UnchangedExcept [.i] s (s.setI w) :=
  ⟨rfl, rfl, fun e he => by cases e <;> simp_all [Element.Same]⟩

/-- A register write changes that register alone. -/
theorem regsExcept_setReg (s : State) (x : Reg) (b : Byte) : RegsExcept [x] s (s.setReg x b) := by
  intro r hr
  rw [State.setReg_reg_other]
  simpa using hr

theorem regsExcept_setRegThenFlag (s : State) (x : Reg) (b f : Byte) : RegsExcept [x, 15] s (s.setRegThenFlag x b f) := by
  intro r hr
  simp only [List.mem_cons, List.not_mem_nil, or_false, not_or] at hr
  rw [State.setRegThenFlag_reg, if_neg hr.2, if_neg hr.1]

/-- What may change in a smaller list may change in a larger one. -/
theorem UnchangedExcept.mono {es es' : List Element} (h : UnchangedExcept es s t) (hs : ∀ e, e ∈ es → e ∈ es') :
    UnchangedExcept es' s t :=
  ⟨h.1, h.2.1, fun e he => h.2.2 e fun h' => he (hs e h')⟩

/-! ## Reset -/

/-- A valid image is loaded. -/
theorem State.resetWith_valid (s : State) {image : List Byte} (h1 : 1 ≤ image.length) (h2 : image.length ≤ 3584) :
    s.resetWith image = s.load image := by
  unfold State.resetWith Config.progMax
  exact if_neg (by omega)

/-- An empty or oversized image is not. -/
theorem State.resetWith_invalid (s : State) {image : List Byte} (h : image.length = 0 ∨ 3584 < image.length) :
    s.resetWith image = s.loadFail := by
  unfold State.resetWith Config.progMax
  exact if_pos h

theorem progBase_eq : Config.progBase = 512 := rfl

theorem memSize_eq : Config.memSize = 4096 := rfl

/-- A loaded memory holds the image, verbatim. -/
theorem State.load_readByte_image (s : State) {image : List Byte} (h2 : image.length ≤ 3584) (k : Nat) (hk : k < image.length) :
    (s.load image).readByte (512 + k) = image[k] := by
  have h := Memory.read_writeAll (a := Config.progBase) (Memory.wf_nil s.params) image
    (by rw [progBase_eq, memSize_eq]; omega) (Config.progBase + k)
  simp only [Nat.le_add_right, Nat.add_sub_cancel_left, hk, and_self, dite_true] at h
  exact h

/-- Outside the image it holds the font table and zeros. -/
theorem State.load_readByte_outside (s : State) {image : List Byte} (h2 : image.length ≤ 3584) {a : Nat}
    (ha : a < 512 ∨ 512 + image.length ≤ a) : (s.load image).readByte a = blankByte s.params a := by
  have h := Memory.read_writeAll (a := Config.progBase) (Memory.wf_nil s.params) image
    (by rw [progBase_eq, memSize_eq]; omega) a
  rw [dif_neg (by rw [progBase_eq]; omega)] at h
  exact h

theorem State.load_wf (s : State) {image : List Byte} (h2 : image.length ≤ 3584) :
    Memory.wf s.params (s.load image).mem :=
  Memory.wf_writeAll (Memory.wf_nil s.params) image (by rw [progBase_eq, memSize_eq]; omega)

end Sys2Proof.Machine
end

