-- ==== Sys2Proof/Laws/PerInstr.lean ====
section
/-! SUPPORT. The statements made per instruction: RoundTrip, one lemma per constructor of Instr. -/

namespace Sys2Proof.Laws.RoundTrip

/-- Decoding the encoding of a well-formed instruction gives it back, under either value of STRICT_DECODE. -/
def Statement (i : Instr) : Prop := i.wellFormed = true → ∀ strict : Bool, decode strict (encode i) = .ok i

theorem cls : Statement .cls := fun _ strict => by cases strict <;> decide
theorem ret : Statement .ret := fun _ strict => by cases strict <;> decide
theorem sys (nnn : Addr12) : Statement (.sys nnn) := fun h strict => by
  simp only [Instr.wellFormed, Bool.and_eq_true, bne_iff_ne, ne_eq] at h
  have h1 : fmtNNN 0x0#4 nnn ≠ 0x00E0#16 := fmtNNN_zero_ne h.1
  have h2 : fmtNNN 0x0#4 nnn ≠ 0x00EE#16 := fmtNNN_zero_ne h.2
  simp [encode, decode, decode0, h1, h2]
theorem jp (nnn : Addr12) : Statement (.jp nnn) := fun _ _ => by simp [encode, decode]
theorem call (nnn : Addr12) : Statement (.call nnn) := fun _ _ => by simp [encode, decode]
theorem seImm (x : Reg) (kk : Byte) : Statement (.seImm x kk) := fun _ _ => by simp [encode, decode]
theorem sneImm (x : Reg) (kk : Byte) : Statement (.sneImm x kk) := fun _ _ => by simp [encode, decode]
theorem seReg (x y : Reg) : Statement (.seReg x y) := fun _ _ => by simp [encode, decode]
theorem ldImm (x : Reg) (kk : Byte) : Statement (.ldImm x kk) := fun _ _ => by simp [encode, decode]
theorem addImm (x : Reg) (kk : Byte) : Statement (.addImm x kk) := fun _ _ => by simp [encode, decode]
theorem ldReg (x y : Reg) : Statement (.ldReg x y) := fun _ _ => by simp [encode, decode, decode8]
theorem orReg (x y : Reg) : Statement (.orReg x y) := fun _ _ => by simp [encode, decode, decode8]
theorem andReg (x y : Reg) : Statement (.andReg x y) := fun _ _ => by simp [encode, decode, decode8]
theorem xorReg (x y : Reg) : Statement (.xorReg x y) := fun _ _ => by simp [encode, decode, decode8]
theorem addReg (x y : Reg) : Statement (.addReg x y) := fun _ _ => by simp [encode, decode, decode8]
theorem subReg (x y : Reg) : Statement (.subReg x y) := fun _ _ => by simp [encode, decode, decode8]
theorem shr (x y : Reg) : Statement (.shr x y) := fun _ _ => by simp [encode, decode, decode8]
theorem subn (x y : Reg) : Statement (.subn x y) := fun _ _ => by simp [encode, decode, decode8]
theorem shl (x y : Reg) : Statement (.shl x y) := fun _ _ => by simp [encode, decode, decode8]
theorem sneReg (x y : Reg) : Statement (.sneReg x y) := fun _ _ => by simp [encode, decode]
theorem ldI (nnn : Addr12) : Statement (.ldI nnn) := fun _ _ => by simp [encode, decode]
theorem jpV0 (nnn : Addr12) : Statement (.jpV0 nnn) := fun _ _ => by simp [encode, decode]
theorem rnd (x : Reg) (kk : Byte) : Statement (.rnd x kk) := fun _ _ => by simp [encode, decode]
theorem drw (x y : Reg) (n : Count) : Statement (.drw x y n) := fun _ _ => by simp [encode, decode]
theorem skp (x : Reg) : Statement (.skp x) := fun _ _ => by simp [encode, decode, decodeE]
theorem sknp (x : Reg) : Statement (.sknp x) := fun _ _ => by simp [encode, decode, decodeE]
theorem ldVxDt (x : Reg) : Statement (.ldVxDt x) := fun _ _ => by simp [encode, decode, decodeF]
theorem ldVxK (x : Reg) : Statement (.ldVxK x) := fun _ _ => by simp [encode, decode, decodeF]
theorem ldDtVx (x : Reg) : Statement (.ldDtVx x) := fun _ _ => by simp [encode, decode, decodeF]
theorem ldStVx (x : Reg) : Statement (.ldStVx x) := fun _ _ => by simp [encode, decode, decodeF]
theorem addI (x : Reg) : Statement (.addI x) := fun _ _ => by simp [encode, decode, decodeF]
theorem ldF (x : Reg) : Statement (.ldF x) := fun _ _ => by simp [encode, decode, decodeF]
theorem ldB (x : Reg) : Statement (.ldB x) := fun _ _ => by simp [encode, decode, decodeF]
theorem storeRegs (x : Reg) : Statement (.storeRegs x) := fun _ _ => by simp [encode, decode, decodeF]
theorem loadRegs (x : Reg) : Statement (.loadRegs x) := fun _ _ => by simp [encode, decode, decodeF]

end Sys2Proof.Laws.RoundTrip
end

