-- ==== Sys2Proof/Laws/Step.lean ====
section
/-! SUPPORT. What a step can do, said once: the request it serves, and one case for each run_state. -/

namespace Sys2Proof.Machine

variable {s s0 t : State}

/-! ## Serving a request -/

/-- A state with its inputs sampled has every element of the state it came from. -/
theorem StepRequested.eq (h : StepRequested s s0) : s0 = { s with host := s0.host } := by
  obtain ⟨keys, rnd, hs, -, rfl⟩ := h
  rfl

/-- A listed step request is the next request, with its own inputs. -/
theorem stepRequested_listed {keys : BitVec 16} {rnd : Byte} {rest : List Request} (h : s.host.requests = .step keys rnd :: rest) :
    StepRequested s (s.sample { s.host with requests := rest } keys rnd) :=
  ⟨keys, rnd, _, by simp only [HostSide.nextRequest, h], rfl⟩

/-- Where no request is listed, a step with free inputs is. -/
theorem stepRequested_free (h : s.host.requests = []) :
    StepRequested s (s.sample { s.host with draws := s.host.draws + 1 } (Config.freeKeys s.host.draws) (Config.freeRnd s.host.draws)) :=
  ⟨_, _, _, by simp only [HostSide.nextRequest, h], rfl⟩

theorem StepRequested.step_eq (h : StepRequested s s0) : step s = performStep s0 := by
  obtain ⟨keys, rnd, hs, hr, rfl⟩ := h
  simp only [step, serve, hr]

theorem StepRequested.runState (h : StepRequested s s0) : s0.runState = s.runState := by rw [h.eq]
theorem StepRequested.pc (h : StepRequested s s0) : s0.pc = s.pc := by rw [h.eq]
theorem StepRequested.dt (h : StepRequested s s0) : s0.dt = s.dt := by rw [h.eq]
theorem StepRequested.st (h : StepRequested s s0) : s0.st = s.st := by rw [h.eq]
theorem StepRequested.params (h : StepRequested s s0) : s0.params = s.params := by rw [h.eq]
theorem StepRequested.kwReg (h : StepRequested s s0) : s0.kwReg = s.kwReg := by rw [h.eq]
theorem StepRequested.mem (h : StepRequested s s0) : s0.mem = s.mem := by rw [h.eq]
theorem StepRequested.reg (h : StepRequested s s0) (r : Reg) : s0.reg r = s.reg r := by rw [h.eq]; rfl
theorem StepRequested.wordAt (h : StepRequested s s0) (a : Nat) : s0.wordAt a = s.wordAt a := by rw [h.eq]; rfl

theorem StepRequested.fetches {w : Word} (h : StepRequested s s0) (hf : Fetches s w) : Fetches s0 w := by
  simpa only [Fetches, h.runState, h.pc, h.wordAt] using hf

theorem StepRequested.requests (h : StepRequested s s0) : s0.host.requests = s.host.requests.tail := by
  obtain ⟨keys, rnd, hs, hr, rfl⟩ := h
  simp only [HostSide.nextRequest] at hr
  split at hr <;> (cases hr; simp [*])

/-- A request is a step request, or a reset, which is served whole. -/
theorem step_cases (s : State) :
    (∃ s0, StepRequested s s0 ∧ step s = performStep s0) ∨
    (∃ image rest, s.host.requests = .reset image :: rest ∧
      step s = .next (State.resetWith { s with host := { s.host with requests := rest } } image)) := by
  rcases hreq : s.host.requests with _ | ⟨r, rest⟩
  · have hn : StepRequested s _ := ⟨_, _, _, by simp only [HostSide.nextRequest, hreq]; rfl, rfl⟩
    exact .inl ⟨_, hn, hn.step_eq⟩
  · cases r with
    | step keys rnd =>
      have hn : StepRequested s _ := ⟨keys, rnd, _, by simp only [HostSide.nextRequest, hreq]; rfl, rfl⟩
      exact .inl ⟨_, hn, hn.step_eq⟩
    | reset image => exact .inr ⟨image, rest, rfl, by simp only [step, serve, HostSide.nextRequest, hreq]⟩

/-! ## The step, by run_state -/

theorem performStep_waitKey (h : s.runState = .waitKey) : performStep s = .next s.keyWaitPoll := by
  simp only [performStep, h]

theorem performStep_stopped (h : s.runState = .halted ∨ s.runState = .loadFailed) : performStep s = .next s := by
  rcases h with h | h <;> simp only [performStep, h]

theorem performStep_fetchFault (h : s.runState = .run) (hpc : 4095 < s.pc.toNat + 1) :
    performStep s = .next (s.raiseFatal .memBounds s.pc) := by
  simp only [performStep, h, executingStep, if_pos hpc]

theorem performStep_fetches {w : Word} (h : Fetches s w) :
    performStep s = Result.endStep (runWord w (s.setPc (s.pc + 2#16))) := by
  obtain ⟨hr, hpc, rfl⟩ := h
  simp only [performStep, hr, executingStep, if_neg (Nat.not_lt.2 hpc)]

/-! ## Every instruction answers a next state -/

theorem exec_answers_next (i : Instr) (s : State) : ∃ t, exec i s = .next t := by
  cases i with
  | ret =>
    simp only [exec, execRet]
    split
    · exact ⟨_, rfl⟩
    · split <;> exact ⟨_, rfl⟩
  | call => simp only [exec, execCall]; split <;> exact ⟨_, rfl⟩
  | drw => simp only [exec, execDrw]; split <;> exact ⟨_, rfl⟩
  | skp => simp only [exec, execSkp]; split <;> exact ⟨_, rfl⟩
  | sknp => simp only [exec, execSknp]; split <;> exact ⟨_, rfl⟩
  | ldB => simp only [exec, execLdB]; split <;> exact ⟨_, rfl⟩
  | storeRegs => simp only [exec, execStoreRegs]; split <;> exact ⟨_, rfl⟩
  | loadRegs => simp only [exec, execLoadRegs]; split <;> exact ⟨_, rfl⟩
  | _ => exact ⟨_, rfl⟩

theorem runWord_answers_next (w : Word) (s : State) : ∃ t, runWord w s = .next t := by
  simp only [runWord]
  split
  · exact exec_answers_next _ _
  · exact ⟨_, rfl⟩

/-- All that a step on a step request can do. -/
theorem performStep_cases (s : State) :
    (s.runState = .run ∧ 4095 < s.pc.toNat + 1 ∧ performStep s = .next (s.raiseFatal .memBounds s.pc)) ∨
    (∃ w t, Fetches s w ∧ runWord w (s.setPc (s.pc + 2#16)) = .next t ∧ performStep s = .next t.endStep) ∨
    (s.runState = .waitKey ∧ performStep s = .next s.keyWaitPoll) ∨
    ((s.runState = .halted ∨ s.runState = .loadFailed) ∧ performStep s = .next s) := by
  rcases h : s.runState with _ | _ | _ | _
  · by_cases hpc : 4095 < s.pc.toNat + 1
    · exact .inl ⟨rfl, hpc, performStep_fetchFault h hpc⟩
    · have hf : Fetches s _ := ⟨h, Nat.not_lt.1 hpc, rfl⟩
      obtain ⟨t, ht⟩ := runWord_answers_next (s.wordAt s.pc.toNat) (s.setPc (s.pc + 2#16))
      exact .inr (.inl ⟨_, t, hf, ht, by rw [performStep_fetches hf, ht]; rfl⟩)
  · exact .inr (.inr (.inl ⟨rfl, performStep_waitKey h⟩))
  · exact .inr (.inr (.inr ⟨.inl rfl, performStep_stopped (.inl h)⟩))
  · exact .inr (.inr (.inr ⟨.inr rfl, performStep_stopped (.inr h)⟩))

/-! ## The tick -/

theorem tickTimer_toNat (b : Byte) : (tickTimer b).toNat = b.toNat - 1 := by
  unfold tickTimer
  split
  · next h => simp [h]
  · next h =>
    have : b.toNat ≠ 0 := fun e => h (BitVec.eq_of_toNat_eq (by simpa using e))
    rw [BitVec.toNat_sub]
    have hb := b.isLt
    simp only [BitVec.toNat_ofNat]
    omega

theorem unchangedExcept_tick (s : State) : UnchangedExcept [.dt, .st] s s.tick :=
  ⟨rfl, rfl, fun e he => by cases e <;> simp_all [Element.Same]⟩

theorem State.endStep_halted (h : s.runState = .halted) : s.endStep = s := if_pos h

theorem State.endStep_running (h : s.runState ≠ .halted) : s.endStep = s.tick := if_neg h

/-! ## The key-wait poll -/

theorem keyWaitPoll_none (h : lowestKey s.host.keys = none) : s.keyWaitPoll = s := by
  simp only [State.keyWaitPoll, h]

theorem keyWaitPoll_some {k : Key} (h : lowestKey s.host.keys = some k) :
    s.keyWaitPoll = { s.setReg s.kwReg (BitVec.ofNat 8 k.val) with
      runState := .run, pc := s.pc + ResumeAdvance.amount s.params.resumeAdvance } := by
  simp only [State.keyWaitPoll, h]

end Sys2Proof.Machine
end

