-- ==== Sys2Proof/Tests/Slice0.lean ====
section
/-! SUPPORT. Tests: the ill-formed terms refused, words written out from spec/30_encoding.md R98 decoded, one step per instruction
with the results of spec/95_test_vectors.md (named in each comment), and a witness for the hypotheses of every obligation. -/

namespace Sys2Proof.Tests

open Sys2Proof Sys2Proof.Machine

/-! ## Well-formed terms -/

theorem test_sys_of_cls_ill_formed : (Instr.sys 0x0E0#12).wellFormed = false := by decide
theorem test_sys_of_ret_ill_formed : (Instr.sys 0x0EE#12).wellFormed = false := by decide
theorem test_sys_neighbours_well_formed :
    (Instr.sys 0x0E1#12).wellFormed = true ∧ (Instr.sys 0x0EF#12).wellFormed = true ∧ Instr.cls.wellFormed = true := by decide

/-! ## Decoding: every constructor by a word written out from the match column of R98 and its operand fields -/

theorem test_decode_system :
    decode true 0b0000000011100000#16 = .ok .cls ∧ decode true 0b0000000011101110#16 = .ok .ret ∧
    decode true 0b0000000100100011#16 = .ok (.sys 0x123#12) := by decide

theorem test_decode_control_flow :
    decode true 0b0001000000100100#16 = .ok (.jp 0x024#12) ∧ decode true 0b0010111111111110#16 = .ok (.call 0xFFE#12) ∧
    decode true 0b0011101001011100#16 = .ok (.seImm 0xA 0x5C#8) ∧ decode true 0b0100101101100001#16 = .ok (.sneImm 0xB 0x61#8) ∧
    decode true 0b0101000100100000#16 = .ok (.seReg 1 2) ∧ decode true 0b1001011110000000#16 = .ok (.sneReg 7 8) ∧
    decode true 0b1011010100000110#16 = .ok (.jpV0 0x506#12) := by decide

theorem test_decode_loads_and_adds :
    decode true 0b0110111100000001#16 = .ok (.ldImm 0xF 0x01#8) ∧ decode true 0b0111000111111111#16 = .ok (.addImm 1 0xFF#8) ∧
    decode true 0b1100001100001111#16 = .ok (.rnd 3 0x0F#8) ∧ decode true 0b1000101010110000#16 = .ok (.ldReg 0xA 0xB) := by
  decide

theorem test_decode_alu :
    decode true 0b1000000100100001#16 = .ok (.orReg 1 2) ∧ decode true 0b1000000100100010#16 = .ok (.andReg 1 2) ∧
    decode true 0b1000000100100011#16 = .ok (.xorReg 1 2) ∧ decode true 0b1000000100100100#16 = .ok (.addReg 1 2) ∧
    decode true 0b1000000100100101#16 = .ok (.subReg 1 2) ∧ decode true 0b1000000100100110#16 = .ok (.shr 1 2) ∧
    decode true 0b1000000100100111#16 = .ok (.subn 1 2) ∧ decode true 0b1000000100101110#16 = .ok (.shl 1 2) := by decide

theorem test_decode_address_memory :
    decode true 0b1010000100100011#16 = .ok (.ldI 0x123#12) ∧ decode true 0b1111001000011110#16 = .ok (.addI 2) ∧
    decode true 0b1111001100101001#16 = .ok (.ldF 3) ∧ decode true 0b1111101000110011#16 = .ok (.ldB 0xA) ∧
    decode true 0b1111001001010101#16 = .ok (.storeRegs 2) ∧ decode true 0b1111001001100101#16 = .ok (.loadRegs 2) := by decide

theorem test_decode_display_keys_timers :
    decode true 0b1101000100100101#16 = .ok (.drw 1 2 5) ∧ decode true 0b1110010110011110#16 = .ok (.skp 5) ∧
    decode true 0b1110010110100001#16 = .ok (.sknp 5) ∧ decode true 0b1111000100000111#16 = .ok (.ldVxDt 1) ∧
    decode true 0b1111001000001010#16 = .ok (.ldVxK 2) ∧ decode true 0b1111000000010101#16 = .ok (.ldDtVx 0) ∧
    decode true 0b1111000000011000#16 = .ok (.ldStVx 0) := by decide

/-- R100, one word for each line of it, and R99. -/
theorem test_decode_unassigned :
    decode true 0x5121#16 = .error .sel5 ∧ decode true 0x8128#16 = .error .sel8 ∧ decode true 0x812F#16 = .error .sel8 ∧
    decode true 0x912F#16 = .error .sel9 ∧ decode true 0xE1FF#16 = .error .selE ∧ decode true 0xF1FF#16 = .error .selF ∧
    decode false 0x5121#16 = .ok (.seReg 1 2) ∧ decode false 0x912F#16 = .ok (.sneReg 1 2) ∧
    decode false 0x8128#16 = .error .sel8 := by decide

theorem test_decode_bytes :
    decodeBytes true [0x12#8, 0x34#8, 0xAA#8] = .ok (.jp 0x234#12, [0xAA#8]) ∧ decodeBytes true [0x12#8] = .error .truncated ∧
    decodeTableWord 16 0xD125 = some (.drw 1 2 5) ∧ decodeTableWord 16 0x8128 = none := by decide

/-! ## One step -/

/-- A state with one listed step request, its inputs chosen. -/
def State.asks (s : State) (keys : BitVec 16) (rnd : Byte) : State :=
  { s with host := { s.host with requests := [.step keys rnd] } }

/-- The state an answer goes on with. -/
def Result.orElse (r : Result) (s : State) : State :=
  match r with
  | .next t    => t
  | .fault _   => s
  | .refused _ => s

/-- One step with no key pressed. -/
def State.poll (s : State) (keys : BitVec 16) : State := Result.orElse (step (State.asks s keys 0x00#8)) s

/-- The word placed at pc and one step run, with its inputs. -/
def State.runWith (s : State) (keys : BitVec 16) (rnd : Byte) (w : Nat) : State :=
  Result.orElse (step ((State.asks s keys rnd).withFetchWord 16 w)) s

/-- The word placed at pc and one step run, no key pressed and the random byte 0. -/
def State.run1 (s : State) (w : Nat) : State := State.runWith s 0#16 0x00#8 w

/-- Registers set. -/
def State.withV (s : State) : List (Reg × Byte) → State
  | [] => s
  | (x, b) :: l => State.withV (s.setReg x b) l

/-- Bytes placed. -/
def State.withMem (s : State) (a : Nat) (bs : List Byte) : State := { s with mem := s.mem.writeAll s.params a bs }

/-- The reset state at a pc. -/
def at_ (pc : Word) : State := State.reset.setPc pc

/-! ### Engine (95_test_vectors.md 2.1) -/

/-- E1: fetch big-endian. -/
theorem test_fetch_big_endian :
    (State.poll (State.withMem State.reset 0x200 [0x12#8, 0x34#8]) 0#16).pc = 0x0234#16 := by decide

/-- E3 and E4, the last word of memory and the fetch past it. -/
theorem test_fetch_last_word :
    (State.run1 (at_ 0x0FFE#16) 0x0000).pc = 0x1000#16 ∧ (State.run1 (at_ 0x0FFE#16) 0x0000).runState = .run := by decide

/-- E5. -/
theorem test_fetch_past_memory :
    let t := State.poll { at_ 0x0FFF#16 with dt := 5#8 } 0#16
    t.runState = .halted ∧ t.errCause = .memBounds ∧ t.errPc = 0x0FFF#16 ∧ t.pc = 0x0FFF#16 ∧ t.dt = 5#8 := by decide

/-- E6: an unassigned word is a no-op with the tick. -/
theorem test_unassigned_no_op :
    let t := State.run1 { at_ 0x0300#16 with dt := 2#8 } 0x5121
    t.pc = 0x0302#16 ∧ t.dt = 1#8 ∧ t.runState = .run := by decide

/-- E7: STRICT_DECODE = false. -/
theorem test_loose_decode :
    (State.run1 (State.withV { at_ 0x0300#16 with params := { defaultParams with strictDecode := false } }
      [(1, 7#8), (2, 7#8)]) 0x5121).pc = 0x0304#16 := by decide

/-- E11 and X7: a halted core does nothing. -/
theorem test_halted_stays :
    let s := State.reset.raiseFatal .stackOverflow 0x0220#16
    (State.poll s 0xFFFF#16).pc = 0x0200#16 ∧ (State.poll s 0xFFFF#16).runState = .halted := by decide

/-! ### Control flow (2.2) -/

/-- F1. -/
theorem test_call :
    let t := State.run1 State.reset 0x2300
    t.pc = 0x0300#16 ∧ t.sp = 1 ∧ t.stack[0] = 0x0202#16 := by decide

/-- F3, the 17th call. -/
theorem test_call_overflow :
    let t := State.run1 { at_ 0x0220#16 with sp := 16, dt := 7#8 } 0x2300
    t.runState = .halted ∧ t.errCause = .stackOverflow ∧ t.errPc = 0x0220#16 ∧ t.pc = 0x0222#16 ∧ t.sp = 16 ∧ t.dt = 7#8 := by
  decide

/-- F2. -/
theorem test_ret :
    let t := State.run1 { at_ 0x0300#16 with sp := 1, stack := State.reset.stack.set 0 0x0202#16 } 0x00EE
    t.pc = 0x0202#16 ∧ t.sp = 0 := by decide

/-- F4 and F5: the empty stack, under both policies. -/
theorem test_ret_empty :
    (State.run1 (at_ 0x0240#16) 0x00EE).errCause = .stackUnderflow ∧ (State.run1 (at_ 0x0240#16) 0x00EE).errPc = 0x0240#16 ∧
    (State.run1 { at_ 0x0240#16 with params := { defaultParams with underflow := .sentinel } } 0x00EE).pc = 0x0000#16 ∧
    (State.run1 { at_ 0x0240#16 with params := { defaultParams with underflow := .sentinel } } 0x00EE).runState = .run := by
  decide

/-- F6. -/
theorem test_sys : (State.run1 { State.reset with dt := 3#8 } 0x0123).pc = 0x0202#16 ∧
    (State.run1 { State.reset with dt := 3#8 } 0x0123).dt = 2#8 := by decide

/-- F7. -/
theorem test_jp : (State.run1 State.reset 0x1FFF).pc = 0x0FFF#16 := by decide

/-- F17 and F18. -/
theorem test_jpV0 :
    (State.run1 (State.withV State.reset [(0, 0xFF#8)]) 0xBFFF).pc = 0x10FE#16 ∧
    (State.run1 (State.withV State.reset [(0, 0x01#8), (5, 0x40#8)]) 0xB500).pc = 0x0501#16 := by decide

/-- F8 and F9. -/
theorem test_seImm :
    (State.run1 (State.withV State.reset [(3, 0x10#8)]) 0x3310).pc = 0x0204#16 ∧
    (State.run1 (State.withV State.reset [(3, 0x11#8)]) 0x3310).pc = 0x0202#16 := by decide

/-- F10 and F11. -/
theorem test_sneImm :
    (State.run1 (State.withV State.reset [(3, 0x10#8)]) 0x4310).pc = 0x0202#16 ∧
    (State.run1 (State.withV State.reset [(3, 0x11#8)]) 0x4310).pc = 0x0204#16 := by decide

/-- F12 and F13. -/
theorem test_seReg :
    (State.run1 (State.withV State.reset [(1, 0x20#8), (2, 0x20#8)]) 0x5120).pc = 0x0204#16 ∧
    (State.run1 (State.withV State.reset [(1, 0x20#8)]) 0x5110).pc = 0x0204#16 := by decide

/-- F14 and F15. -/
theorem test_sneReg :
    (State.run1 (State.withV State.reset [(1, 0x20#8), (2, 0x21#8)]) 0x9120).pc = 0x0204#16 ∧
    (State.run1 (State.withV State.reset [(1, 0x20#8)]) 0x9110).pc = 0x0202#16 := by decide

/-! ### Registers and ALU (2.3) -/

/-- A1. -/
theorem test_ldImm : (State.run1 State.reset 0x6AFF).reg 0xA = 0xFF#8 := by decide

/-- A2 and A3. -/
theorem test_addImm :
    let t := State.run1 (State.withV State.reset [(1, 0xFF#8), (15, 0x55#8)]) 0x7102
    t.reg 1 = 0x01#8 ∧ t.reg 15 = 0x55#8 ∧ (State.run1 (State.withV State.reset [(15, 0x01#8)]) 0x7F01).reg 15 = 0x02#8 := by
  decide

/-- A4. -/
theorem test_ldReg : (State.run1 (State.withV State.reset [(2, 0x7A#8)]) 0x8120).reg 1 = 0x7A#8 := by decide

/-- A5. -/
theorem test_orReg :
    let t := State.run1 (State.withV State.reset [(0, 0xF0#8), (1, 0x0F#8), (15, 0x77#8)]) 0x8011
    t.reg 0 = 0xFF#8 ∧ t.reg 15 = 0x77#8 := by decide

/-- A6. -/
theorem test_andReg : (State.run1 (State.withV State.reset [(0, 0xF0#8), (1, 0x3C#8)]) 0x8012).reg 0 = 0x30#8 := by decide

/-- A7. -/
theorem test_xorReg : (State.run1 (State.withV State.reset [(0, 0xF0#8), (1, 0x3C#8)]) 0x8013).reg 0 = 0xCC#8 := by decide

/-- A11. -/
theorem test_addReg :
    let t := State.run1 (State.withV State.reset [(0, 0xFF#8), (1, 0xFF#8)]) 0x8014
    t.reg 0 = 0xFE#8 ∧ t.reg 15 = 0x01#8 := by decide

/-- A12 and A13: VF as destination, and as source. -/
theorem test_addReg_vf :
    (State.run1 (State.withV State.reset [(15, 0xFF#8), (1, 0x01#8)]) 0x8F14).reg 15 = 0x01#8 ∧
    (State.run1 (State.withV State.reset [(0, 0x10#8), (15, 0x05#8)]) 0x80F4).reg 0 = 0x15#8 := by decide

/-- A16 and A18. -/
theorem test_subReg :
    let t := State.run1 (State.withV State.reset [(0, 0x03#8), (1, 0x05#8)]) 0x8015
    t.reg 0 = 0xFE#8 ∧ t.reg 15 = 0x00#8 ∧
    (State.run1 (State.withV State.reset [(1, 0xFF#8)]) 0x8015).reg 0 = 0x01#8 := by decide

/-- A17: equal operands under both values of SUB_EQ_FLAG. -/
theorem test_subReg_equal :
    (State.run1 (State.withV State.reset [(0, 0x05#8), (1, 0x05#8), (15, 9#8)]) 0x8015).reg 15 = 0x00#8 ∧
    (State.run1 (State.withV { State.reset with params := { defaultParams with subEqFlag := .one } }
      [(0, 0x05#8), (1, 0x05#8)]) 0x8015).reg 15 = 0x01#8 := by decide

/-- A24 and A23: SHIFT_SOURCE = VX and VY. -/
theorem test_shr :
    let t := State.run1 (State.withV State.reset [(0, 0x04#8), (1, 0x03#8)]) 0x8016
    let u := State.run1 (State.withV { State.reset with params := { defaultParams with shiftSource := .vy } } [(1, 0x03#8)]) 0x8016
    t.reg 0 = 0x02#8 ∧ t.reg 15 = 0x00#8 ∧ u.reg 0 = 0x01#8 ∧ u.reg 15 = 0x01#8 ∧ u.reg 1 = 0x03#8 := by decide

/-- A27. -/
theorem test_subn :
    let t := State.run1 (State.withV State.reset [(0, 0x05#8), (1, 0x03#8)]) 0x8017
    t.reg 0 = 0xFE#8 ∧ t.reg 15 = 0x00#8 := by decide

/-- A29 and A32. -/
theorem test_shl :
    let t := State.run1 (State.withV State.reset [(0, 0x81#8)]) 0x800E
    t.reg 0 = 0x02#8 ∧ t.reg 15 = 0x01#8 ∧ (State.run1 (State.withV State.reset [(15, 0x7F#8)]) 0x8F0E).reg 15 = 0x00#8 := by
  decide

/-- A33. -/
theorem test_rnd : (State.runWith State.reset 0#16 0xAB#8 0xC30F).reg 3 = 0x0B#8 := by decide

/-! ### Address register and memory (2.4) -/

/-- M1. -/
theorem test_ldI : (State.run1 State.reset 0xA123).i = 0x0123#16 := by decide

/-- M2 and M3. -/
theorem test_addI :
    (State.run1 (State.withV (State.reset.setI 0x0FFF#16) [(0, 0x01#8)]) 0xF01E).i = 0x1000#16 ∧
    (State.run1 (State.withV (State.reset.setI 0xFFFF#16) [(0, 0x01#8)]) 0xF01E).i = 0x0000#16 := by decide

/-- M6, and M5 under both values of FONT_INDEX. -/
theorem test_ldF :
    (State.run1 (State.withV State.reset [(0, 0xFF#8)]) 0xF029).i = 0x054B#16 ∧
    (State.run1 (State.withV State.reset [(0, 0x10#8)]) 0xF029).i = 0x00A0#16 ∧
    (State.run1 (State.withV { State.reset with params := { defaultParams with fontIndex := .lowNibble } }
      [(0, 0x10#8)]) 0xF029).i = 0x0050#16 := by decide

/-- Property S2: glyphs 0, 7 and F of the default font. -/
theorem test_font :
    (List.range 5).map (fun k => State.reset.readByte (0x050 + k)) = [0xF0, 0x90, 0x90, 0x90, 0xF0] ∧
    (List.range 5).map (fun k => State.reset.readByte (0x073 + k)) = [0xF0, 0x10, 0x20, 0x40, 0x40] ∧
    (List.range 5).map (fun k => State.reset.readByte (0x09B + k)) = [0xF0, 0x80, 0xF0, 0x80, 0x80] := by decide

/-- M7. -/
theorem test_ldB :
    let t := State.run1 (State.withV (State.reset.setI 0x0300#16) [(0, 0xFF#8)]) 0xF033
    t.readByte 0x300 = 0x02#8 ∧ t.readByte 0x301 = 0x05#8 ∧ t.readByte 0x302 = 0x05#8 ∧ t.i = 0x0300#16 := by decide

/-- M11 and M12: past 4095, nothing stored and no wrap. -/
theorem test_ldB_bounds :
    let t := State.run1 (State.withV ((at_ 0x0210#16).setI 0x0FFE#16) [(0, 0x09#8)]) 0xF033
    t.runState = .halted ∧ t.errCause = .memBounds ∧ t.errPc = 0x0210#16 ∧ t.pc = 0x0212#16 ∧ t.readByte 0xFFE = 0x00#8 ∧
    (State.run1 (State.reset.setI 0xFFFF#16) 0xF033).errCause = .memBounds := by decide

/-- M13, M14, M15. -/
theorem test_storeRegs :
    let s (m : LdstIMode) := State.withV ({ State.reset with params := { defaultParams with ldstIMode := m } }.setI 0x0400#16)
      [(0, 0x11#8), (1, 0x22#8), (2, 0x33#8), (3, 0x44#8)]
    let t := State.run1 (s .none) 0xF255
    (List.range 4).map (fun k => t.readByte (0x400 + k)) = [0x11#8, 0x22#8, 0x33#8, 0x00#8] ∧ t.i = 0x0400#16 ∧
    (State.run1 (s .plusX) 0xF255).i = 0x0402#16 ∧ (State.run1 (s .plusX1) 0xF255).i = 0x0403#16 := by decide

/-- M16 and M17. -/
theorem test_storeRegs_bounds :
    let s := State.withV (State.reset.setI 0x0FFF#16) [(0, 0x5A#8)]
    (State.run1 s 0xF055).readByte 0xFFF = 0x5A#8 ∧ (State.run1 s 0xF155).errCause = .memBounds ∧
    (State.run1 s 0xF155).readByte 0xFFF = 0x00#8 := by decide

/-- M18. -/
theorem test_loadRegs :
    let t := State.run1 (State.withV ((State.withMem State.reset 0x300 [0x01#8, 0x05#8, 0x06#8, 0x07#8]).setI 0x0300#16)
      [(3, 0x99#8)]) 0xF265
    t.reg 0 = 0x01#8 ∧ t.reg 1 = 0x05#8 ∧ t.reg 2 = 0x06#8 ∧ t.reg 3 = 0x99#8 ∧ t.i = 0x0300#16 := by decide

/-- M20. -/
theorem test_loadRegs_bounds :
    let t := State.run1 (State.withV (State.reset.setI 0x0FF1#16) [(0, 0x42#8)]) 0xFF65
    t.errCause = .memBounds ∧ t.reg 0 = 0x42#8 := by decide

/-! ### Framebuffer (2.5) -/

/-- A framebuffer with every pixel set. -/
def allOnes : Framebuffer := Vector.replicate 32 (BitVec.allOnes 64)

/-- D1. -/
theorem test_cls :
    let t := State.run1 (State.withV { State.reset with fb := allOnes } [(15, 0x77#8)]) 0x00E0
    t.fb = Vector.replicate 32 0#64 ∧ t.reg 15 = 0x77#8 := by decide

/-- D11: one row split across columns 60..63 and 0..3. -/
theorem test_drw_wraps :
    let s := State.withV ((State.withMem State.reset 0x300 [0xFF#8]).setI 0x0300#16) [(0, 0x3C#8), (15, 0x55#8)]
    let t := State.run1 s 0xD011
    t.fbData 7 = 0x0F#8 ∧ t.fbData 0 = 0xF0#8 ∧ t.reg 15 = 0x00#8 := by decide

/-- D5 and D8: a collision, and the range checked before anything is drawn. -/
theorem test_drw_collision_and_bounds :
    let s := (State.withMem State.reset 0x301 [0x80#8]).setI 0x0301#16
    let t := State.run1 { s with fb := s.fb.set 0 0xF000000000000000#64 } 0xD011
    let u := State.run1 ((at_ 0x0220#16).setI 0x0FFE#16) 0xD013
    t.fbData 0 = 0x70#8 ∧ t.reg 15 = 0x01#8 ∧ u.errCause = .memBounds ∧ u.errPc = 0x0220#16 ∧ u.reg 15 = 0x00#8 := by decide

/-- D7: n = 0, even with I past memory. -/
theorem test_drw_zero_rows :
    let t := State.run1 (State.withV (State.reset.setI 0xFFFF#16) [(15, 0x55#8)]) 0xD010
    t.reg 15 = 0x00#8 ∧ t.runState = .run ∧ t.fb = State.reset.fb := by decide

/-- Log 19: over set pixels the first draw turns pixels off, so the second collides with nothing although the sprite has set bits. -/
theorem test_drw_twice_over_ones :
    let s := { (State.withMem State.reset 0x300 [0xFF#8]).setI 0x0300#16 with fb := allOnes }
    let t := State.run1 s 0xD011
    let u := State.run1 t 0xD011
    t.reg 15 = 0x01#8 ∧ u.reg 15 = 0x00#8 ∧ u.fb = allOnes := by decide

/-! ### Keys and timers (2.6) -/

/-- K1 and K2. -/
theorem test_skp :
    let s := State.withV (at_ 0x0210#16) [(5, 0x0A#8)]
    (State.runWith s 0x0400#16 0x00#8 0xE59E).pc = 0x0214#16 ∧ (State.runWith s 0#16 0x00#8 0xE59E).pc = 0x0212#16 := by decide

/-- K3 and K4. -/
theorem test_sknp :
    let s := State.withV (at_ 0x0210#16) [(5, 0x0A#8)]
    (State.runWith s 0#16 0x00#8 0xE5A1).pc = 0x0214#16 ∧ (State.runWith s 0x0400#16 0x00#8 0xE5A1).pc = 0x0212#16 := by decide

/-- K5, K6, K7. -/
theorem test_key_range :
    let s (p : KeyRangePolicy) := State.withV { at_ 0x0210#16 with params := { defaultParams with keyRange := p } } [(5, 0x10#8)]
    (State.runWith (s .fatal) 0xFFFF#16 0x00#8 0xE59E).errCause = .keyRange ∧
    (State.runWith (s .notPressed) 0xFFFF#16 0x00#8 0xE59E).pc = 0x0212#16 ∧
    (State.runWith (s .notPressed) 0xFFFF#16 0x00#8 0xE5A1).pc = 0x0214#16 ∧
    (State.runWith (s .lowNibble) 0x0001#16 0x00#8 0xE59E).pc = 0x0214#16 := by decide

/-- K8 and K9. -/
theorem test_ldVxDt :
    let t := State.run1 { State.reset with dt := 2#8 } 0xF107
    t.reg 1 = 0x02#8 ∧ t.dt = 0x01#8 ∧ (State.run1 State.reset 0xF307).dt = 0x00#8 := by decide

/-- K10 and K12. -/
theorem test_ldDtVx :
    (State.run1 (State.withV State.reset [(0, 0x03#8)]) 0xF015).dt = 0x02#8 ∧
    (State.run1 { State.reset with dt := 9#8 } 0xF015).dt = 0x00#8 := by decide

/-- K13. -/
theorem test_ldStVx : (State.run1 (State.withV State.reset [(0, 0x10#8)]) 0xF018).st = 0x0F#8 := by decide

/-- K14 and K19: the wait is entered, with the tick, and nothing is polled in this step. -/
theorem test_ldVxK :
    let t := State.runWith { at_ 0x0206#16 with dt := 5#8 } 0xFFFF#16 0x00#8 0xF20A
    t.runState = .waitKey ∧ t.kwReg = 2 ∧ t.pc = 0x0208#16 ∧ t.dt = 4#8 ∧ t.reg 2 = 0x00#8 := by decide

/-- The state of K15 to K17. -/
def waiting (r : ResumeAdvance) : State :=
  { at_ 0x0208#16 with
    runState := .waitKey, kwReg := 2, dt := 4#8, params := { defaultParams with resumeAdvance := r } }

/-- K15, K16, K17. -/
theorem test_key_wait_poll :
    let t := State.poll (waiting .two) 0x0220#16
    t.runState = .run ∧ t.reg 2 = 0x05#8 ∧ t.pc = 0x020A#16 ∧ t.dt = 4#8 ∧
    (State.poll (waiting .zero) 0x0220#16).pc = 0x0208#16 ∧ (State.poll (waiting .two) 0#16).runState = .waitKey := by decide

/-! ### Reset (2.7) -/

/-- X4: a reset request served by a step, from a halted core. -/
theorem test_reset_request :
    let s := State.withV (State.reset.raiseFatal .memBounds 0x0220#16) [(3, 0x33#8)]
    let t := Result.orElse (step { s with host := { s.host with requests := [.reset [0x12#8, 0x34#8]] } }) s
    t.runState = .run ∧ t.errCause = .none ∧ t.errPc = 0x0000#16 ∧ t.pc = 0x0200#16 ∧ t.reg 3 = 0x00#8 ∧
    t.readByte 0x200 = 0x12#8 ∧ t.readByte 0x201 = 0x34#8 ∧ t.readByte 0x202 = 0x00#8 ∧ t.readByte 0x050 = 0xF0#8 := by decide

/-- X1: an empty image. -/
theorem test_reset_empty_image :
    (State.resetWith State.reset []).statusOut = 3#2 ∧ (State.resetWith State.reset []).errCauseOut = 5#8 := by decide

/-! ## Witnesses: for every obligation with hypotheses, a state and operands that meet all of them -/

/-- A state whose next step fetches the word. -/
def fetching (s : State) (w : Nat) : State := (State.asks s 0#16 0x00#8).withFetchWord 16 w

/-- The same state with the step's inputs sampled. -/
def sampled (s : State) : State := s.sample { s.host with requests := [] } 0#16 0x00#8

theorem fetching_requested (s : State) (w : Nat) :
    StepRequested (fetching s w) (sampled (fetching s w)) := stepRequested_listed rfl

/-! ### Encoding and memory -/

theorem witness_DecodeInvertsEncode :
    Instr.cls.wellFormed = true ∧ (Instr.sys 0xFFF#12).wellFormed = true ∧ (Instr.drw 15 15 15).wellFormed = true := by decide

theorem witness_EncodeInvertsStrictDecode : decode true 0x00EF#16 = .ok (.sys 0x0EF#12) := by decide

theorem witness_UnassignedWordsExactly :
    opField 0x512F#16 = 0x5#4 ∧ nField 0x512F#16 ≠ 0 ∧ opField 0x9121#16 = 0x9#4 ∧ nField 0x9121#16 ≠ 0 ∧
    opField 0x812F#16 = 0x8#4 ∧ nField 0x812F#16 = 0xF ∧ opField 0xE1FF#16 = 0xE#4 ∧ opField 0xF1FF#16 = 0xF#4 := by decide

theorem witness_CanonicalMemoriesAreEqual :
    ∃ m m' : Memory, m ≠ [] ∧ Memory.wf defaultParams m ∧ Memory.wf defaultParams m' ∧
      ∀ a : Nat, m.read defaultParams a = m'.read defaultParams a :=
  ⟨[(0x050, 0x00#8), (0xFFF, 0x01#8)], [(0x050, 0x00#8), (0xFFF, 0x01#8)], by decide, by decide, by decide, fun _ => rfl⟩

/-! ### The step engine -/

theorem witness_StepRunsDecodedInstruction :
    ∃ s s0 w i, StepRequested s s0 ∧ Fetches s w ∧ decode s.params.strictDecode w = .ok i :=
  ⟨fetching State.reset 0x6AFF, _, 0x6AFF#16, .ldImm 0xA 0xFF#8, fetching_requested _ _, ⟨rfl, by decide, by decide⟩, rfl⟩

/-- The last address a fetch can begin at. -/
theorem witness_fetch_at_the_last_word :
    ∃ s s0 w i, StepRequested s s0 ∧ Fetches s w ∧ decode s.params.strictDecode w = .ok i ∧ s.pc = 0x0FFE#16 :=
  ⟨fetching (at_ 0x0FFE#16) 0x00E0, _, 0x00E0#16, .cls, fetching_requested _ _, ⟨rfl, by decide, by decide⟩, rfl, by decide⟩

theorem witness_PlacedWordIsFetched :
    ∃ s v, Memory.wf s.params s.mem ∧ Fetches s v ∧ ∃ s0, StepRequested s s0 :=
  ⟨fetching State.reset 0x1234, 0x1234#16, by decide, ⟨rfl, by decide, by decide⟩, _, fetching_requested _ _⟩

theorem witness_UnassignedWordRunsAsNoOp :
    ∃ s s0 w u, StepRequested s s0 ∧ Fetches s w ∧ decode s.params.strictDecode w = .error u :=
  ⟨fetching State.reset 0x8128, _, 0x8128#16, .sel8, fetching_requested _ _, ⟨rfl, by decide, by decide⟩, rfl⟩

theorem witness_FetchPastMemoryHalts :
    ∃ s s0, StepRequested s s0 ∧ s.runState = .run ∧ 4095 < s.pc.toNat + 1 :=
  ⟨State.asks (at_ 0x0FFF#16) 0#16 0x00#8, _, stepRequested_listed rfl, rfl, by decide⟩

theorem witness_StoppedCoreDoesNothing :
    (∃ s s0, StepRequested s s0 ∧ s.runState = .halted) ∧ (∃ s s0, StepRequested s s0 ∧ s.runState = .loadFailed) :=
  ⟨⟨State.asks (State.reset.fatal .memBounds) 0#16 0x00#8, _, stepRequested_listed rfl, rfl⟩,
    ⟨State.asks State.reset.loadFail 0#16 0x00#8, _, stepRequested_listed rfl, rfl⟩⟩

/-- Both clauses: an instruction that does not halt the core, and one that does. -/
theorem witness_TickFollowsTheInstruction :
    (∃ s s0 u w, StepRequested s s0 ∧ Fetches s w ∧ runWord w (s0.setPc (s.pc + 2#16)) = .next u ∧ u.runState ≠ .halted) ∧
    (∃ s s0 u w, StepRequested s s0 ∧ Fetches s w ∧ runWord w (s0.setPc (s.pc + 2#16)) = .next u ∧ u.runState = .halted) :=
  ⟨⟨fetching State.reset 0x00E0, _, _, 0x00E0#16, fetching_requested _ _, ⟨rfl, by decide, by decide⟩, rfl, by decide⟩,
    ⟨fetching State.reset 0x00EE, _, _, 0x00EE#16, fetching_requested _ _, ⟨rfl, by decide, by decide⟩, rfl, rfl⟩⟩

theorem witness_StepNeverBlocks :
    ∃ s s0, StepRequested s s0 ∧ s.runState = .waitKey ∧ s0.host.keys = 0#16 :=
  ⟨State.asks (waiting .two) 0#16 0x00#8, _, stepRequested_listed rfl, rfl, rfl⟩

/-- Two keys pressed: the lower one is least; both values of KEYWAIT_RESUME_ADVANCE. -/
theorem witness_KeyWaitPollCommitsLowestKey :
    (∃ s s0, StepRequested s s0 ∧ s.runState = .waitKey ∧ IsLowestKey s0.host.keys 5 ∧ s.params.resumeAdvance = .two) ∧
    (∃ s s0, StepRequested s s0 ∧ s.runState = .waitKey ∧ IsLowestKey s0.host.keys 15 ∧ s.params.resumeAdvance = .zero) :=
  ⟨⟨State.asks (waiting .two) 0x0220#16 0x00#8, _, stepRequested_listed rfl, rfl, ⟨by decide, by decide⟩, rfl⟩,
    ⟨State.asks (waiting .zero) 0x8000#16 0x00#8, _, stepRequested_listed rfl, rfl, ⟨by decide, by decide⟩, rfl⟩⟩

/-- Each clause: from RUN, into WAIT_KEY, from WAIT_KEY, from HALTED, from LOAD_FAILED. -/
theorem witness_RunStateTransitions :
    (∃ s s0 t, StepRequested s s0 ∧ step s = .next t ∧ s.runState = .run ∧ t.runState = .waitKey) ∧
    (∃ s s0 t, StepRequested s s0 ∧ step s = .next t ∧ s.runState = .waitKey) ∧
    (∃ s s0 t, StepRequested s s0 ∧ step s = .next t ∧ s.runState = .halted) ∧
    (∃ s s0 t, StepRequested s s0 ∧ step s = .next t ∧ s.runState = .loadFailed) :=
  ⟨⟨fetching State.reset 0xF20A, _, _, fetching_requested _ _, rfl, rfl, rfl⟩,
    ⟨State.asks (waiting .two) 0x0220#16 0x00#8, _, _, stepRequested_listed rfl, rfl, rfl⟩,
    ⟨State.asks (State.reset.fatal .memBounds) 0#16 0x00#8, _, _, stepRequested_listed rfl, rfl, rfl⟩,
    ⟨State.asks State.reset.loadFail 0#16 0x00#8, _, _, stepRequested_listed rfl, rfl, rfl⟩⟩

/-- The invariant holds in a state, and its step answers: a store, and a reset. -/
theorem witness_StepKeepsInvariant :
    (∃ s t, s.Inv ∧ step s = .next t ∧ t.mem ≠ s.mem) ∧ (∃ s t, s.Inv ∧ step s = .next t ∧ t.runState = .loadFailed) :=
  ⟨⟨fetching (State.withV (State.reset.setI 0x0FFD#16) [(0, 0xFF#8)]) 0xF033, _, ⟨by decide, rfl, rfl⟩, rfl, by decide⟩,
    ⟨{ State.reset with host := { State.reset.host with requests := [.reset []] } }, _, ⟨by decide, rfl, rfl⟩, rfl, rfl⟩⟩

theorem witness_StepKeepsParamsAndTakesOneRequest :
    (∃ s t, step s = .next t ∧ s.host.requests ≠ []) ∧ (∃ s t, step s = .next t ∧ s.host.requests = []) :=
  ⟨⟨fetching State.reset 0x00E0, _, rfl, by decide⟩, ⟨State.reset, _, rfl, rfl⟩⟩

theorem witness_InputsReadOnlyByTheirInstructions :
    (∃ i s t, (∀ x kk, i ≠ .rnd x kk) ∧ exec i s = .next t) ∧
    (∃ i s t, (∀ x, i ≠ .skp x ∧ i ≠ .sknp x) ∧ exec i s = .next t) :=
  ⟨⟨.skp 0, State.reset, _, fun _ _ => by simp, rfl⟩, ⟨.rnd 0 0xFF#8, State.reset, _, fun _ => by simp, rfl⟩⟩

/-- A jump to itself, stepped twice from DT = 1. -/
def idling : Nat → State
  | 0     => { fetching State.reset 0x1200 with dt := 1#8, host := { State.reset.host with requests :=
      [.step 0#16 0x00#8, .step 0#16 0x00#8] } }
  | k + 1 => Result.orElse (step (idling k)) (idling k)

theorem witness_DelayTimerCountsExecutingSteps :
    ∀ k, k < 2 → (∃ s0, StepRequested (idling k) s0) ∧ (∃ w, Fetches (idling k) w ∧
        ∀ x, decode (idling k).params.strictDecode w ≠ .ok (.ldDtVx x)) ∧
      step (idling k) = .next (idling (k + 1)) ∧ (idling (k + 1)).runState ≠ .halted := by
  intro k hk
  rcases (by omega : k = 0 ∨ k = 1) with rfl | rfl
  · exact ⟨⟨_, stepRequested_listed rfl⟩, ⟨0x1200#16, ⟨rfl, by decide, by decide⟩, by decide⟩, rfl, by decide⟩
  · exact ⟨⟨_, stepRequested_listed rfl⟩, ⟨0x1200#16, ⟨rfl, by decide, by decide⟩, by decide⟩, rfl, by decide⟩

/-! ### Errors -/

/-- Every instruction that can raise an error, at the boundary of its condition. -/
theorem witness_FatalErrorsExactlyWhere :
    errorOf (.call 0x300#12) { State.reset with sp := 16 } = some .stackOverflow ∧ errorOf .ret State.reset = some .stackUnderflow ∧
    errorOf (.drw 0 0 1) (State.reset.setI 0x1000#16) = some .memBounds ∧
    errorOf (.ldB 0) (State.reset.setI 0x0FFE#16) = some .memBounds ∧
    errorOf (.storeRegs 15) (State.reset.setI 0x0FF1#16) = some .memBounds ∧
    errorOf (.loadRegs 15) (State.reset.setI 0x0FF1#16) = some .memBounds ∧
    errorOf (.skp 0) (State.withV State.reset [(0, 0x10#8)]) = some .keyRange ∧
    errorOf (.sknp 0) (State.withV State.reset [(0, 0x10#8)]) = some .keyRange := by decide

/-- The same instructions one below it, and RET on a full stack; in RUN, and answering a next state. -/
theorem witness_InstructionsWriteOnlyTheirOwn :
    errorOf (.call 0x300#12) { State.reset with sp := 15 } = none ∧ errorOf .ret { State.reset with sp := 16 } = none ∧
    errorOf (.drw 0 0 1) (State.reset.setI 0x0FFF#16) = none ∧ errorOf (.drw 0 0 0) (State.reset.setI 0xFFFF#16) = none ∧
    errorOf (.ldB 0) (State.reset.setI 0x0FFD#16) = none ∧ errorOf (.storeRegs 15) (State.reset.setI 0x0FF0#16) = none ∧
    errorOf (.loadRegs 15) (State.reset.setI 0x0FF0#16) = none ∧ errorOf (.skp 0) (State.withV State.reset [(0, 0x0F#8)]) = none ∧
    errorOf (.sknp 0) (State.withV State.reset [(0, 0x0F#8)]) = none := by decide

theorem witness_no_error_no_halt :
    ∃ t, errorOf (.ldB 0) (State.reset.setI 0x0FFD#16) = none ∧ exec (.ldB 0) (State.reset.setI 0x0FFD#16) = .next t ∧
      (State.reset.setI 0x0FFD#16).runState ≠ .halted := ⟨_, by decide, rfl, by decide⟩

/-! ### Reset -/

theorem witness_ResetLoadsTheImage :
    1 ≤ [0x60#8].length ∧ [0x60#8].length ≤ 3584 ∧ 1 ≤ (List.replicate 3584 0x60#8).length ∧
    (List.replicate 3584 0x60#8).length ≤ 3584 :=
  ⟨by decide, by decide, by rw [List.length_replicate]; omega, le_of_eq List.length_replicate⟩

theorem witness_FailedLoadIsReported :
    ([] : List Byte).length = 0 ∧ 3584 < (List.replicate 3585 0x60#8).length :=
  ⟨rfl, by rw [List.length_replicate]; omega⟩

theorem witness_ResetForgetsTheStateBefore :
    (∃ s : State, s.host.requests = .reset [0x12#8, 0x34#8] :: []) ∧
    (∃ s t : State, s ≠ t ∧ s.params = t.params ∧ s.host = t.host) :=
  ⟨⟨{ State.reset with host := { State.reset.host with requests := [.reset [0x12#8, 0x34#8]] } }, rfl⟩,
    ⟨State.reset, State.reset.setReg 0 0x01#8, by decide, rfl, rfl⟩⟩

/-! ### Control flow -/

/-- Each clause of RET, and of CALL, at the boundaries of SP. -/
theorem witness_ReturnPopsTheStack :
    (0 : Fin 16).val + 1 = ({ State.reset with sp := 1 } : State).sp.val ∧
    (15 : Fin 16).val + 1 = ({ State.reset with sp := 16 } : State).sp.val ∧
    State.reset.sp.val = 0 ∧ State.reset.params.underflow = .fatal ∧
    ({ State.reset with params := { defaultParams with underflow := .sentinel } } : State).params.underflow = .sentinel := by
  decide

theorem witness_CallPushesReturnAddress :
    (0 : Fin 16).val = State.reset.sp.val ∧ (15 : Fin 16).val = ({ State.reset with sp := 15 } : State).sp.val ∧
    ({ State.reset with sp := 16 } : State).sp.val = 16 := by decide

theorem witness_SysDoesNothing :
    ∃ s s0 w nnn, StepRequested s s0 ∧ Fetches s w ∧ decode s.params.strictDecode w = .ok (.sys nnn) :=
  ⟨fetching State.reset 0x0000, _, 0x0000#16, 0x000#12, fetching_requested _ _, ⟨rfl, by decide, by decide⟩, rfl⟩

theorem witness_JumpsSetPc :
    ∃ t t0 : State, StepRequested t t0 ∧ t.runState = .run ∧ 0x0FFF ≤ t.pc.toNat :=
  ⟨State.asks (at_ 0x10FE#16) 0#16 0x00#8, _, stepRequested_listed rfl, rfl, by decide⟩

theorem witness_CallThenReturnRoundTrip :
    ∃ s t u : State, s.sp.val < 16 ∧ exec (.call 0x300#12) s = .next t ∧ u.sp = t.sp ∧
      ∀ j : Fin 16, j.val < t.sp.val → u.stack[j.val] = t.stack[j.val] :=
  ⟨{ State.reset with sp := 15 }, _, _, by decide, rfl, rfl, fun _ _ => rfl⟩

/-! ### Registers -/

theorem witness_ShiftsSetTheBitShiftedOut :
    ((State.reset.params.shiftSource = .vx → (0x00#8 : Byte) = State.reset.reg 1) ∧
      (State.reset.params.shiftSource = .vy → (0x00#8 : Byte) = State.reset.reg 2)) ∧
    ({ State.reset with params := { defaultParams with shiftSource := .vy } } : State).params.shiftSource = .vy := by decide

/-- DRW with a coordinate in VF, its range in memory: n = 0 and n ≥ 1. -/
theorem witness_FlagWriteIsTheLast :
    ((0 : Count).val = 0) ∧ (State.reset.setI 0x0FF1#16).i.toNat + (15 : Count).val - 1 ≤ 4095 := by decide

theorem witness_FlagRegisterRule :
    (setsFlag (.drw 0 0 0) = true ∧ errorOf (.drw 0 0 0) State.reset = none) ∧
    ∃ t, setsFlag (.loadRegs 14) = false ∧ exec (.loadRegs 14) State.reset = .next t ∧ 15 ∉ destRegs (.loadRegs 14) :=
  ⟨by decide, _, by decide, rfl, by decide⟩

/-! ### Memory and the framebuffer -/

/-- Both clauses at the boundary. -/
theorem witness_BcdStoresTheDigits :
    (Memory.wf State.reset.params State.reset.mem ∧ (State.reset.setI 0x0FFD#16).i.toNat + 2 ≤ 4095) ∧
    4095 < (State.reset.setI 0x0FFE#16).i.toNat + 2 := by decide

theorem witness_StoreRegistersAtI :
    (Memory.wf State.reset.params State.reset.mem ∧ (State.reset.setI 0x0FF0#16).i.toNat + (15 : Reg).val ≤ 4095) ∧
    4095 < (State.reset.setI 0x0FF1#16).i.toNat + (15 : Reg).val := by decide

theorem witness_LoadRegistersFromI :
    (State.reset.setI 0x0FFF#16).i.toNat + (0 : Reg).val ≤ 4095 ∧ 4095 < (State.reset.setI 0x0FFF#16).i.toNat + (1 : Reg).val := by
  decide

theorem witness_FontGlyphsReadBack :
    ∃ (u : State) (image : List Byte), 1 ≤ image.length ∧ image.length ≤ 3584 ∧
      u.mem = (State.reset.resetWith image).mem ∧ u.params = State.reset.params ∧ (u.reg 3).toNat = (15 : Fin 16).val :=
  ⟨(State.reset.resetWith [0x12#8]).setReg 3 0x0F#8, [0x12#8], by decide, by decide, rfl, rfl, by decide⟩

theorem witness_PackedByteLayout : (255 : Fin 256).val = 8 * (31 : Fin 32).val + (63 : Fin 64).val / 8 := by decide

/-- Each clause: a drawn pixel, set before; drawn pixels all clear before; the range past memory. -/
theorem witness_DrawFlipsTheSpritesPixels :
    Drawn ((State.withMem State.reset 0x300 [0x80#8]).setI 0x0300#16) 0 0 1 0 0 ∧
    ¬ Drawn ((State.withMem State.reset 0x300 [0x80#8]).setI 0x0300#16) 0 0 1 1 0 ∧
    allOnes.pixel 0 0 = true ∧ State.reset.fb.pixel 0 0 = false ∧
    (1 ≤ (15 : Count).val ∧ 4095 < (State.reset.setI 0x0FF2#16).i.toNat + (15 : Count).val - 1) := by
  refine ⟨⟨0, 0, by decide, by decide, by decide, by decide, by decide⟩, ?_, by decide, by decide, by decide⟩
  rintro ⟨k, j, hk, -, hr, -⟩
  have h0 : k = 0 := by simpa using hk
  subst h0
  exact absurd hr (by decide)

/-- Both directions of VF: over clear pixels, and over set ones. -/
theorem witness_DrawTwiceRestores :
    (∃ s t : State, ((5 : Count).val = 0 ∨ s.i.toNat + (5 : Count).val - 1 ≤ 4095) ∧ exec (.drw 1 2 5) s = .next t ∧
      t.reg 1 = s.reg 1 ∧ t.reg 2 = s.reg 2 ∧ t.i = s.i ∧ s.fb.pixel 0 0 = false ∧ t.fb.pixel 0 0 = true) ∧
    (∃ s t : State, exec (.drw 1 2 5) s = .next t ∧ s.fb.pixel 0 0 = true ∧ t.fb.pixel 0 0 = false) :=
  ⟨⟨State.reset.setI 0x0073#16, _, by decide, rfl, by decide, by decide, by decide, by decide, by decide⟩,
    ⟨{ State.reset.setI 0x0073#16 with fb := allOnes }, _, rfl, by decide, by decide⟩⟩

/-! ### Keys and timers -/

/-- Each clause at its boundary: 15, 16 under each policy, 0xFF under LOW_NIBBLE. -/
theorem witness_KeySkips :
    let s (p : KeyRangePolicy) (b : Byte) := State.withV { State.reset with params := { defaultParams with keyRange := p } } [(0, b)]
    ((s .fatal 0x0F#8).reg 0).toNat = (15 : Key).val ∧
    (15 < ((s .lowNibble 0xFF#8).reg 0).toNat ∧ (15 : Key).val = ((s .lowNibble 0xFF#8).reg 0).toNat % 16) ∧
    (15 < ((s .notPressed 0x10#8).reg 0).toNat ∧ (s .notPressed 0x10#8).params.keyRange = .notPressed) ∧
    (15 < ((s .fatal 0x10#8).reg 0).toNat ∧ (s .fatal 0x10#8).params.keyRange = .fatal) := by decide

theorem witness_TimerTransfers : State.reset.runState = .run := rfl

/-- Fx0A at 0x206, and key 5 pressed at the step after it. -/
theorem witness_KeyWaitTakesTwoSteps :
    ∃ s s0 t t0 w x k, StepRequested s s0 ∧ Fetches s w ∧ decode s.params.strictDecode w = .ok (.ldVxK x) ∧ step s = .next t ∧
      StepRequested t t0 ∧ IsLowestKey t0.host.keys k :=
  ⟨(({ at_ 0x0206#16 with host := { State.reset.host with requests := [.step 0#16 0x00#8, .step 0x0220#16 0x00#8] } } : State)).withFetchWord
      16 0xF20A, _, _, _, 0xF20A#16, 2, 5, stepRequested_listed rfl, ⟨rfl, by decide, by decide⟩, rfl, rfl,
    stepRequested_listed rfl, ⟨by decide, by decide⟩⟩

end Sys2Proof.Tests
end

section
/-! What the flag-setting instructions leave in VF (spec/10_state.md R23): one rule for the ALU's pair of writes, one for DRW
in range, and the obligation from the two. -/

namespace Sys2Proof.Machine

/-- R23's order of writes: the flag is what VF holds afterwards, whatever the result register. -/
@[simp] theorem State.setRegThenFlag_reg_flag (s : State) (x : Reg) (b f : Byte) : (s.setRegThenFlag x b f).reg 15 = f := by
  simp [State.setRegThenFlag_reg]

/-- An instruction that ends with a result and then its flag leaves that flag in VF. -/
theorem exec_leaves_flag {i : Instr} {s : State} {x : Reg} {b f : Byte} (h : exec i s = .next (s.setRegThenFlag x b f)) :
    ∃ t, exec i s = .next t ∧ t.reg 15 = f :=
  ⟨_, h, State.setRegThenFlag_reg_flag ..⟩

/-- In range, `loadRange` answers the bytes, with the bound as `CheckRange` writes it. -/
theorem State.loadRange_of_inRange (s : State) {a n : Nat} (h : n = 0 ∨ a + n - 1 ≤ 4095) :
    s.loadRange a n = some ((List.range n).map fun k => s.readByte (a + k)) := by
  have hsize : n = 0 ∨ a + n ≤ Config.memSize := by simp only [Config.memSize]; omega
  rw [State.loadRange_eq, if_pos hsize]

/-- DRW with its sprite in memory: the drawing at the coordinates as they were, then the collision flag into VF (R242). -/
theorem exec_drw_of_loadRange (x y : Reg) {n : Count} {s : State} {sprite : List Byte}
    (h : s.loadRange s.i.toNat n.val = some sprite) :
    exec (.drw x y n) s =
      .next (State.setReg { s with fb := (s.fb.draw (s.reg x).toNat (s.reg y).toNat sprite).1 } 15
        (flagByte (s.fb.draw (s.reg x).toNat (s.reg y).toNat sprite).2)) := by
  simp only [exec, execDrw, h]

/-- Settles O44: each ALU flag setter ends with `setRegThenFlag` on the old operands, and DRW with the write of VF. -/
theorem flagWriteIsTheLast : Obligations.FlagWriteIsTheLast := by
  intro y s
  refine ⟨exec_leaves_flag rfl, exec_leaves_flag rfl, exec_leaves_flag rfl, exec_leaves_flag rfl, exec_leaves_flag rfl, ?_⟩
  intro x n hrange
  have hsprite := s.loadRange_of_inRange hrange
  exact ⟨_, _, exec_drw_of_loadRange x y hsprite, rfl, State.setReg_fb .., State.setReg_reg_same ..⟩

end Sys2Proof.Machine
end

section
/-! The big-endian instruction word (spec/20_memory.md R62): the word of two bytes as a shift and an OR, and the obligation
from it. -/

namespace Sys2Proof

/-- R62's formula for two bytes. The shift takes place at the word's width, so no bit of the high byte is lost. -/
theorem wordOfBytes_eq_shiftLeft_or (hi lo : Byte) :
    wordOfBytes hi lo = (hi.setWidth 16 <<< 8) ||| lo.setWidth 16 := by
  rw [wordOfBytes, BitVec.append_def, BitVec.shiftLeftZeroExtend_eq, BitVec.setWidth'_eq]

namespace Machine

/-- Settles O8: `wordAt` is the word of the bytes at a and a + 1, and R62's formula holds of any two bytes. -/
theorem instructionWordIsBigEndian : Obligations.InstructionWordIsBigEndian := by
  intro s a
  exact wordOfBytes_eq_shiftLeft_or (s.readByte a) (s.readByte (a + 1))

end Machine

end Sys2Proof
end

section
/-! The step as a total operation (spec/40_engine.md R132; log 8): whatever request it serves it answers a next state, an error
included, and the key-wait poll with no key pressed is the identity. -/

namespace Sys2Proof.Machine

/-- A step on a step request answers a next state in every run_state; errors are next states with their record (log 8). -/
theorem performStep_answers_next (s : State) : ∃ t, performStep s = .next t := by
  obtain ⟨-, -, hfault⟩ | ⟨_, _, -, -, hrun⟩ | ⟨-, hpoll⟩ | ⟨-, hstopped⟩ := performStep_cases s
  · exact ⟨_, hfault⟩
  · exact ⟨_, hrun⟩
  · exact ⟨_, hpoll⟩
  · exact ⟨_, hstopped⟩

theorem step_answers_next (s : State) : ∃ t, step s = .next t := by
  obtain ⟨s0, -, hstep⟩ | ⟨_, _, -, hreset⟩ := step_cases s
  · rw [hstep]
    exact performStep_answers_next s0
  · exact ⟨_, hreset⟩

theorem lowestKey_of_no_key : lowestKey 0#16 = none := by decide

/-- The key-wait poll with no key pressed is the identity (R132, R267). -/
theorem keyWaitPoll_of_no_key {s : State} (h : s.host.keys = 0#16) : s.keyWaitPoll = s :=
  keyWaitPoll_none (h ▸ lowestKey_of_no_key)

/-- Settles O15: each request is served to a next state, and in WAIT_KEY the step is the poll alone. -/
theorem stepNeverBlocks : Obligations.StepNeverBlocks := by
  refine ⟨step_answers_next, ?_⟩
  intro s s0 hreq hwait hkeys
  have hpoll : performStep s0 = .next s0.keyWaitPoll := performStep_waitKey (hreq.runState.trans hwait)
  rw [hreq.step_eq, hpoll, keyWaitPoll_of_no_key hkeys]

end Sys2Proof.Machine
end

section
/-! The skips (spec/41_control_flow.md R154, R155, R162): one rule for every instruction that ends with `skipIf`, and the
obligation from it. -/

namespace Sys2Proof.Machine

/-- An instruction that ends with a skip on c adds 2 to pc exactly when c says P holds, and writes nothing else (R162). -/
theorem exec_skips {i : Instr} {s : State} {c : Bool} {P : Prop} [Decidable P] (h : exec i s = .next (s.skipIf c))
    (hc : c = true ↔ P) :
    ∃ t, exec i s = .next t ∧ t.pc = (if P then s.pc + 2#16 else s.pc) ∧ UnchangedExcept [.pc] s t := by
  have hpc : (s.skipIf c).pc = if P then s.pc + 2#16 else s.pc := by simp only [State.skipIf_pc, hc]
  exact ⟨_, h, hpc, unchangedExcept_skipIf s c⟩

/-- Settles O35: SE and SNE skip on the Boolean tests `==` and `!=` of V[x] and kk. -/
theorem immediateSkips : Obligations.ImmediateSkips := by
  intro x kk s
  exact ⟨exec_skips rfl beq_iff_eq, exec_skips rfl bne_iff_ne⟩

end Sys2Proof.Machine
end

section
/-! Register loads and additions (spec/42_register_alu.md R180 to R182, R186): the numbers behind `sumByte`, `carry` and
`flagByte`, one rule for an instruction that ends with a register write, one for an instruction that ends with a result and its
flag, and the obligations from the two. -/

namespace Sys2Proof.Machine

@[simp] theorem sumByte_toNat (a b : Byte) : (sumByte a b).toNat = (a.toNat + b.toNat) % 256 :=
  BitVec.toNat_ofNat ..

theorem carry_iff (a b : Byte) : carry a b = true ↔ a.toNat + b.toNat > 255 :=
  decide_eq_true_iff

/-- A flag is 1 exactly when its Boolean says P holds. -/
theorem flagByte_toNat {c : Bool} {P : Prop} [Decidable P] (hc : c = true ↔ P) :
    (flagByte c).toNat = if P then 1 else 0 := by
  rw [flagByte, apply_ite BitVec.toNat]
  exact if_congr hc rfl rfl

/-- An instruction that ends with V[x] <- b leaves b in V[x] and writes nothing else. -/
theorem exec_writesReg {i : Instr} {s : State} {x : Reg} {b : Byte} {P : Byte → Prop} (h : exec i s = .next (s.setReg x b))
    (hb : P b) : ∃ t, exec i s = .next t ∧ P (t.reg x) ∧ RegsExcept [x] s t ∧ UnchangedExcept [.v] s t := by
  have hx : P ((s.setReg x b).reg x) := by rwa [State.setReg_reg_same]
  exact ⟨_, h, hx, regsExcept_setReg s x b, unchangedExcept_setReg s x b⟩

/-- The result of a pair of writes stays, unless it went to VF, where the flag is written over it (R23). -/
theorem State.setRegThenFlag_reg_result (s : State) {x : Reg} (b f : Byte) (hx : x ≠ 15) :
    (s.setRegThenFlag x b f).reg x = b := by
  rw [State.setRegThenFlag_reg, if_neg hx, if_pos rfl]

/-- An instruction that ends with a result b and then its flag f leaves b in V[x], unless x is F, and f in VF, and writes
nothing else. -/
theorem exec_writesRegThenFlag {i : Instr} {s : State} {x : Reg} {b f : Byte} {P Q : Byte → Prop}
    (h : exec i s = .next (s.setRegThenFlag x b f)) (hb : P b) (hf : Q f) :
    ∃ t, exec i s = .next t ∧ (x ≠ 15 → P (t.reg x)) ∧ Q (t.reg 15) ∧ RegsExcept [x, 15] s t ∧ UnchangedExcept [.v] s t := by
  have hresult : x ≠ 15 → P ((s.setRegThenFlag x b f).reg x) := fun hx => by
    rwa [State.setRegThenFlag_reg_result s b f hx]
  have hflag : Q ((s.setRegThenFlag x b f).reg 15) := by rwa [State.setRegThenFlag_reg_flag]
  exact ⟨_, h, hresult, hflag, regsExcept_setRegThenFlag s x b f, unchangedExcept_setRegThenFlag s x b f⟩

/-- Settles O40: ADD ends with the sum and then the carry, both of the operands read first. -/
theorem addSetsCarry : Obligations.AddSetsCarry := by
  intro x y s
  have hsum := sumByte_toNat (s.reg x) (s.reg y)
  have hcarry := flagByte_toNat (carry_iff (s.reg x) (s.reg y))
  exact exec_writesRegThenFlag (P := fun b => b.toNat = _) (Q := fun f => f.toNat = _) rfl hsum hcarry

/-- Settles O38: each of the three ends with one register write. -/
theorem loadAndAddImmediateResults : Obligations.LoadAndAddImmediateResults := by
  intro x y kk s
  refine ⟨exec_writesReg (P := (· = kk)) rfl rfl, ?_, exec_writesReg (P := (· = s.reg y)) rfl rfl⟩
  exact exec_writesReg (P := fun b => b.toNat = _) rfl (sumByte_toNat (s.reg x) kk)

end Sys2Proof.Machine
end

section
/-! The address register (spec/43_address_memory.md R210, R211): the number behind `addrWord`, one rule for every instruction
that ends with a write of I, and the obligation from the two. -/

namespace Sys2Proof.Machine

/-- Widening to a word keeps the number of a 12-bit address (R92). -/
@[simp] theorem addrWord_toNat (nnn : Addr12) : (addrWord nnn).toNat = nnn.toNat :=
  BitVec.toNat_setWidth_of_le (by decide)

/-- An instruction that ends with I <- w leaves w in I, whatever w is, and writes nothing else. -/
theorem exec_writesI {i : Instr} {s : State} {w : Word} {n : Nat} (h : exec i s = .next (s.setI w)) (hw : w.toNat = n) :
    ∃ t, exec i s = .next t ∧ t.i.toNat = n ∧ UnchangedExcept [.i] s t :=
  ⟨_, h, hw, unchangedExcept_setI s w⟩

/-- Settles O46: LD I and ADD I each end with one write of I, of nnn zero-extended and of the sum narrowed to 16 bits. -/
theorem addressRegisterResults : Obligations.AddressRegisterResults := by
  refine ⟨fun nnn s => ?_, fun x s => ?_⟩
  · exact exec_writesI rfl (addrWord_toNat nnn)
  · exact exec_writesI rfl (BitVec.toNat_ofNat (s.i.toNat + (s.reg x).toNat) 16)

end Sys2Proof.Machine
end

section
/-! CLS (spec/44_display.md R241): the cleared framebuffer's packed view, the frame of a framebuffer write, and the obligation
from the two. -/

namespace Sys2Proof.Machine

@[simp] theorem Framebuffer.clear_packedByte (k : Fin 256) : Framebuffer.clear.packedByte k = 0x00#8 := by
  rw [Framebuffer.packedByte, Framebuffer.clear, Vector.getElem_replicate, BitVec.extractLsb'_zero]

/-- A framebuffer write changes the framebuffer alone. -/
theorem unchangedExcept_setFb (s : State) (fb : Framebuffer) : UnchangedExcept [.fb] s { s with fb := fb } := by
  refine ⟨rfl, rfl, fun e he => ?_⟩
  cases e
  case fb => exact absurd (List.mem_singleton_self _) he
  case mem | v => exact fun _ => rfl
  all_goals rfl

/-- Settles O52: CLS is one write, of the clear framebuffer. -/
theorem clearScreenClears : Obligations.ClearScreenClears := by
  intro s
  exact ⟨_, rfl, Framebuffer.clear_pixel, Framebuffer.clear_packedByte, unchangedExcept_setFb s Framebuffer.clear⟩

end Sys2Proof.Machine
end

section
/-! Decode and encode agree (spec/30_encoding.md R98; spec/20_memory.md R62): the rows' round trips put together, for words and
for bytes. -/

namespace Sys2Proof

/-- The round trip of every row of the opcode map. -/
theorem decode_encode : ∀ i : Instr, Laws.RoundTrip.Statement i
  | .cls => Laws.RoundTrip.cls
  | .ret => Laws.RoundTrip.ret
  | .sys nnn => Laws.RoundTrip.sys nnn
  | .jp nnn => Laws.RoundTrip.jp nnn
  | .call nnn => Laws.RoundTrip.call nnn
  | .seImm x kk => Laws.RoundTrip.seImm x kk
  | .sneImm x kk => Laws.RoundTrip.sneImm x kk
  | .seReg x y => Laws.RoundTrip.seReg x y
  | .ldImm x kk => Laws.RoundTrip.ldImm x kk
  | .addImm x kk => Laws.RoundTrip.addImm x kk
  | .ldReg x y => Laws.RoundTrip.ldReg x y
  | .orReg x y => Laws.RoundTrip.orReg x y
  | .andReg x y => Laws.RoundTrip.andReg x y
  | .xorReg x y => Laws.RoundTrip.xorReg x y
  | .addReg x y => Laws.RoundTrip.addReg x y
  | .subReg x y => Laws.RoundTrip.subReg x y
  | .shr x y => Laws.RoundTrip.shr x y
  | .subn x y => Laws.RoundTrip.subn x y
  | .shl x y => Laws.RoundTrip.shl x y
  | .sneReg x y => Laws.RoundTrip.sneReg x y
  | .ldI nnn => Laws.RoundTrip.ldI nnn
  | .jpV0 nnn => Laws.RoundTrip.jpV0 nnn
  | .rnd x kk => Laws.RoundTrip.rnd x kk
  | .drw x y n => Laws.RoundTrip.drw x y n
  | .skp x => Laws.RoundTrip.skp x
  | .sknp x => Laws.RoundTrip.sknp x
  | .ldVxDt x => Laws.RoundTrip.ldVxDt x
  | .ldVxK x => Laws.RoundTrip.ldVxK x
  | .ldDtVx x => Laws.RoundTrip.ldDtVx x
  | .ldStVx x => Laws.RoundTrip.ldStVx x
  | .addI x => Laws.RoundTrip.addI x
  | .ldF x => Laws.RoundTrip.ldF x
  | .ldB x => Laws.RoundTrip.ldB x
  | .storeRegs x => Laws.RoundTrip.storeRegs x
  | .loadRegs x => Laws.RoundTrip.loadRegs x

/-- Settles O3: each row's word decodes to its instruction, and decoding an instruction's two bytes is decoding its word. -/
theorem decodeInvertsEncode : Obligations.DecodeInvertsEncode := by
  intro strict i rest hwf
  have hword : decode strict (encode i) = .ok i := decode_encode i hwf strict
  have hbytes : decodeBytes strict (encodeBytes i ++ rest) = .ok (i, rest) := by
    rw [encodeBytes, decodeBytes_bytesOfWord, hword]
  exact ⟨hword, hbytes⟩

end Sys2Proof
end

section
/-! The fields and the decoder by major opcode (spec/30_encoding.md R90, R94 to R100): what each value of `op` decodes to, and
the obligations about the decoder's table. -/

namespace Sys2Proof

/-- Settles O1: each field is the quotient and remainder its bit range stands for. -/
theorem fieldsAreTheSpecsBits : Obligations.FieldsAreTheSpecsBits := by
  intro w
  have hw : w.toNat < 65536 := w.isLt
  rw [opField_toNat, xField_val, yField_val, nField_val, kkField_toNat, nnnField_toNat]
  refine ⟨?_, rfl, rfl, rfl, rfl, rfl, ?_, ?_⟩ <;> omega

/-- Settles O2: each of the sixteen words is decoded by evaluation. -/
theorem specWordsDecode : Obligations.SpecWordsDecode := by
  unfold Obligations.SpecWordsDecode
  decide

/-- The sixteen major opcodes (R94). -/
theorem opField_cases (w : Word) :
    opField w = 0x0#4 ∨ opField w = 0x1#4 ∨ opField w = 0x2#4 ∨ opField w = 0x3#4 ∨ opField w = 0x4#4 ∨ opField w = 0x5#4 ∨
    opField w = 0x6#4 ∨ opField w = 0x7#4 ∨ opField w = 0x8#4 ∨ opField w = 0x9#4 ∨ opField w = 0xA#4 ∨ opField w = 0xB#4 ∨
    opField w = 0xC#4 ∨ opField w = 0xD#4 ∨ opField w = 0xE#4 ∨ opField w = 0xF#4 := by
  generalize opField w = o
  revert o
  decide

section
variable {strict : Bool} {w : Word}

theorem decode_of_op0 (h : opField w = 0x0#4) : decode strict w = .ok (decode0 w) := by simp [decode, h]
theorem decode_of_op1 (h : opField w = 0x1#4) : decode strict w = .ok (.jp (nnnField w)) := by simp [decode, h]
theorem decode_of_op2 (h : opField w = 0x2#4) : decode strict w = .ok (.call (nnnField w)) := by simp [decode, h]
theorem decode_of_op3 (h : opField w = 0x3#4) : decode strict w = .ok (.seImm (xField w) (kkField w)) := by simp [decode, h]
theorem decode_of_op4 (h : opField w = 0x4#4) : decode strict w = .ok (.sneImm (xField w) (kkField w)) := by simp [decode, h]
theorem decode_of_op5 (h : opField w = 0x5#4) :
    decode strict w = if nField w = 0 ∨ strict = false then .ok (.seReg (xField w) (yField w)) else .error .sel5 := by
  simp [decode, h]
theorem decode_of_op6 (h : opField w = 0x6#4) : decode strict w = .ok (.ldImm (xField w) (kkField w)) := by simp [decode, h]
theorem decode_of_op7 (h : opField w = 0x7#4) : decode strict w = .ok (.addImm (xField w) (kkField w)) := by simp [decode, h]
theorem decode_of_op8 (h : opField w = 0x8#4) : decode strict w = decode8 w := by simp [decode, h]
theorem decode_of_op9 (h : opField w = 0x9#4) :
    decode strict w = if nField w = 0 ∨ strict = false then .ok (.sneReg (xField w) (yField w)) else .error .sel9 := by
  simp [decode, h]
theorem decode_of_opA (h : opField w = 0xA#4) : decode strict w = .ok (.ldI (nnnField w)) := by simp [decode, h]
theorem decode_of_opB (h : opField w = 0xB#4) : decode strict w = .ok (.jpV0 (nnnField w)) := by simp [decode, h]
theorem decode_of_opC (h : opField w = 0xC#4) : decode strict w = .ok (.rnd (xField w) (kkField w)) := by simp [decode, h]
theorem decode_of_opD (h : opField w = 0xD#4) : decode strict w = .ok (.drw (xField w) (yField w) (nField w)) := by
  simp [decode, h]
theorem decode_of_opE (h : opField w = 0xE#4) : decode strict w = decodeE w := by simp [decode, h]
theorem decode_of_opF (h : opField w = 0xF#4) : decode strict w = decodeF w := by simp [decode, h]

end

end Sys2Proof
end

section
/-! Each word has one meaning (spec/30_encoding.md R98, R101): a word is the format of its own fields, so a decoded word is the
encoding of what it decodes to. -/

namespace Sys2Proof

variable {w : Word} {op : BitVec 4} {i : Instr}

theorem fmtNNN_fields (hop : opField w = op) : fmtNNN op (nnnField w) = w :=
  word_eq_of_nnn (by rw [opField_fmtNNN, hop]) (nnnField_fmtNNN ..)

theorem fmtXKK_fields {kk : Byte} (hop : opField w = op) (hkk : kkField w = kk) : fmtXKK op (xField w) kk = w :=
  word_eq_of_kk (by rw [opField_fmtXKK, hop]) (xField_fmtXKK ..) (by rw [kkField_fmtXKK, hkk])

theorem fmtXYN_fields {n : BitVec 4} (hop : opField w = op) (hn : nField w = n.toFin) :
    fmtXYN op (xField w) (yField w) n = w :=
  word_eq_of_xyn (by rw [opField_fmtXYN, hop]) (xField_fmtXYN ..) (yField_fmtXYN ..) (by rw [nField_fmtXYN, hn])

theorem encode_decode0 (hop : opField w = 0x0#4) : (decode0 w).wellFormed = true ∧ encode (decode0 w) = w := by
  have hw : fmtNNN 0x0#4 (nnnField w) = w := fmtNNN_fields hop
  unfold decode0
  split
  · next hcls => exact ⟨rfl, hcls.symm⟩
  · next hcls =>
    split
    · next hret => exact ⟨rfl, hret.symm⟩
    · next hret =>
      have hE0 : nnnField w ≠ 0x0E0#12 := fun e => hcls (by rw [← hw, e]; decide)
      have hEE : nnnField w ≠ 0x0EE#12 := fun e => hret (by rw [← hw, e]; decide)
      exact ⟨by simp [Instr.wellFormed, hE0, hEE], hw⟩

theorem encode_of_decode8 (hop : opField w = 0x8#4) (h : decode8 w = .ok i) : i.wellFormed = true ∧ encode i = w := by
  unfold decode8 at h
  split at h <;> cases h
  all_goals exact ⟨rfl, fmtXYN_fields hop (Fin.ext ‹(nField w).val = _›)⟩

theorem encode_of_decodeE (hop : opField w = 0xE#4) (h : decodeE w = .ok i) : i.wellFormed = true ∧ encode i = w := by
  unfold decodeE at h
  split at h <;> cases h
  all_goals exact ⟨rfl, fmtXKK_fields hop (BitVec.eq_of_toNat_eq ‹(kkField w).toNat = _›)⟩

theorem encode_of_decodeF (hop : opField w = 0xF#4) (h : decodeF w = .ok i) : i.wellFormed = true ∧ encode i = w := by
  unfold decodeF at h
  split at h <;> cases h
  all_goals exact ⟨rfl, fmtXKK_fields hop (BitVec.eq_of_toNat_eq ‹(kkField w).toNat = _›)⟩

/-- Settles O4: by the major opcode, each format gives back the word whose fields it is filled with. -/
theorem encodeInvertsStrictDecode : Obligations.EncodeInvertsStrictDecode := by
  intro w i h
  rcases opField_cases w with ho | ho | ho | ho | ho | ho | ho | ho | ho | ho | ho | ho | ho | ho | ho | ho
  · rw [decode_of_op0 ho] at h; cases h; exact encode_decode0 ho
  · rw [decode_of_op1 ho] at h; cases h; exact ⟨rfl, fmtNNN_fields ho⟩
  · rw [decode_of_op2 ho] at h; cases h; exact ⟨rfl, fmtNNN_fields ho⟩
  · rw [decode_of_op3 ho] at h; cases h; exact ⟨rfl, fmtXKK_fields ho rfl⟩
  · rw [decode_of_op4 ho] at h; cases h; exact ⟨rfl, fmtXKK_fields ho rfl⟩
  · rw [decode_of_op5 ho] at h
    split at h <;> cases h
    next hn => exact ⟨rfl, fmtXYN_fields ho (by simpa using hn)⟩
  · rw [decode_of_op6 ho] at h; cases h; exact ⟨rfl, fmtXKK_fields ho rfl⟩
  · rw [decode_of_op7 ho] at h; cases h; exact ⟨rfl, fmtXKK_fields ho rfl⟩
  · rw [decode_of_op8 ho] at h; exact encode_of_decode8 ho h
  · rw [decode_of_op9 ho] at h
    split at h <;> cases h
    next hn => exact ⟨rfl, fmtXYN_fields ho (by simpa using hn)⟩
  · rw [decode_of_opA ho] at h; cases h; exact ⟨rfl, fmtNNN_fields ho⟩
  · rw [decode_of_opB ho] at h; cases h; exact ⟨rfl, fmtNNN_fields ho⟩
  · rw [decode_of_opC ho] at h; cases h; exact ⟨rfl, fmtXKK_fields ho rfl⟩
  · rw [decode_of_opD ho] at h; cases h; exact ⟨rfl, fmtXYN_fields ho rfl⟩
  · rw [decode_of_opE ho] at h; exact encode_of_decodeE ho h
  · rw [decode_of_opF ho] at h; exact encode_of_decodeF ho h

end Sys2Proof
end

section
/-! The unassigned words (spec/30_encoding.md R99, R100), major opcode by major opcode. -/

namespace Sys2Proof

theorem decode8_rejects_iff (w : Word) :
    (∃ u, decode8 w = .error u) ↔ nField w ∈ [0x8, 0x9, 0xA, 0xB, 0xC, 0xD, 0xF] := by
  unfold decode8
  generalize nField w = n
  fin_cases n <;> simp

theorem decodeE_rejects_iff (w : Word) : (∃ u, decodeE w = .error u) ↔ kkField w ∉ [0x9E#8, 0xA1#8] := by
  unfold decodeE
  simp only [List.mem_cons, List.not_mem_nil, or_false, ← BitVec.toNat_inj, BitVec.toNat_ofNat]
  split <;> simp_all

theorem decodeF_rejects_iff (w : Word) :
    (∃ u, decodeF w = .error u) ↔
      kkField w ∉ [0x07#8, 0x0A#8, 0x15#8, 0x18#8, 0x1E#8, 0x29#8, 0x33#8, 0x55#8, 0x65#8] := by
  unfold decodeF
  simp only [List.mem_cons, List.not_mem_nil, or_false, ← BitVec.toNat_inj, BitVec.toNat_ofNat]
  split <;> simp_all

/-- A selector that must hold rejects exactly where it does not. -/
theorem rejects_unless_iff {c : Prop} [Decidable c] {i : Instr} {e : Unassigned} :
    (∃ u, (if c then .ok i else .error e : Except Unassigned Instr) = .error u) ↔ ¬c := by
  by_cases hc : c <;> simp [hc]

/-- Settles O6: 8, E and F have a selector to reject by, 5 and 9 one under STRICT_DECODE alone, and the others none. -/
theorem unassignedWordsExactly : Obligations.UnassignedWordsExactly := by
  refine ⟨fun strict w => ?_, fun w h5 => ?_, fun w h9 => ?_⟩
  · rcases opField_cases w with ho | ho | ho | ho | ho | ho | ho | ho | ho | ho | ho | ho | ho | ho | ho | ho
    · simp [decode_of_op0 ho, ho]
    · simp [decode_of_op1 ho, ho]
    · simp [decode_of_op2 ho, ho]
    · simp [decode_of_op3 ho, ho]
    · simp [decode_of_op4 ho, ho]
    · simp [decode_of_op5 ho, rejects_unless_iff, ho, and_comm]
    · simp [decode_of_op6 ho, ho]
    · simp [decode_of_op7 ho, ho]
    · simp [decode_of_op8 ho, decode8_rejects_iff, ho]
    · simp [decode_of_op9 ho, rejects_unless_iff, ho, and_comm]
    · simp [decode_of_opA ho, ho]
    · simp [decode_of_opB ho, ho]
    · simp [decode_of_opC ho, ho]
    · simp [decode_of_opD ho, ho]
    · simp [decode_of_opE ho, decodeE_rejects_iff, ho]
    · simp [decode_of_opF ho, decodeF_rejects_iff, ho]
  · rw [decode_of_op5 h5, if_pos (.inr rfl)]
  · rw [decode_of_op9 h9, if_pos (.inr rfl)]

end Sys2Proof
end

section
/-! The opcode map (spec/30_encoding.md R98): what each mask selects by, read in a word's fields, and the decoder against the
map. -/

namespace Sys2Proof

/-! ## A masked word is the format with its free fields 0 -/

theorem and_F000 (w : Word) : w &&& 0xF000#16 = fmtNNN (opField w) 0x000#12 := by
  have hmask : 0xF000#16 = BitVec.allOnes 4 ++ 0x000#12 := by decide
  conv_lhs => rw [← fmtNNN_fields (w := w) rfl, hmask, fmtNNN, BitVec.and_append]
  rw [BitVec.and_allOnes, BitVec.and_zero, fmtNNN]

theorem and_F00F (w : Word) : w &&& 0xF00F#16 = fmtXYN (opField w) 0 0 (nibble (nField w)) := by
  have hmask : 0xF00F#16 = BitVec.allOnes 4 ++ 0x0#4 ++ 0x0#4 ++ BitVec.allOnes 4 := by decide
  conv_lhs => rw [← fmtXYN_fields (w := w) rfl (nibble_toFin _).symm, hmask, fmtXYN, BitVec.and_append,
    BitVec.and_append, BitVec.and_append]
  rw [BitVec.and_allOnes, BitVec.and_zero, BitVec.and_zero, BitVec.and_allOnes]
  rfl

theorem and_F0FF (w : Word) : w &&& 0xF0FF#16 = fmtXKK (opField w) 0 (kkField w) := by
  have hmask : 0xF0FF#16 = BitVec.allOnes 4 ++ 0x0#4 ++ BitVec.allOnes 8 := by decide
  conv_lhs => rw [← fmtXKK_fields (w := w) rfl rfl, hmask, fmtXKK, BitVec.and_append, BitVec.and_append]
  rw [BitVec.and_allOnes, BitVec.and_zero, BitVec.and_allOnes]
  rfl

/-! ## What a row selects by: the fields its mask keeps, with the pattern's values (R98) -/

section
variable {p : Word} {make : Word → Instr} {w : Word}

theorem selects_FFFF : OpcodeRow.selects ⟨p, 0xFFFF#16, make⟩ w = true ↔
    opField w = p.extractLsb' 12 4 ∧ (nnnField w).toNat = (p.extractLsb' 0 12).toNat := by
  rw [OpcodeRow.selects, show 0xFFFF#16 = BitVec.allOnes 16 from rfl, BitVec.and_allOnes, beq_iff_eq, BitVec.toNat_inj]
  change w = p ↔ opField w = opField p ∧ nnnField w = nnnField p
  exact ⟨fun e => by rw [e]; exact ⟨rfl, rfl⟩, fun ⟨ho, hn⟩ => word_eq_of_nnn ho hn⟩

theorem selects_F000 (hp : fmtNNN (opField p) 0x000#12 = p) :
    OpcodeRow.selects ⟨p, 0xF000#16, make⟩ w = true ↔ opField w = p.extractLsb' 12 4 := by
  rw [OpcodeRow.selects, and_F000, beq_iff_eq]
  change fmtNNN (opField w) 0x000#12 = p ↔ opField w = opField p
  exact ⟨fun e => by rw [← e, opField_fmtNNN], fun ho => by rw [ho, hp]⟩

theorem selects_F00F (hp : fmtXYN (opField p) 0 0 (nibble (nField p)) = p) :
    OpcodeRow.selects ⟨p, 0xF00F#16, make⟩ w = true ↔
      opField w = p.extractLsb' 12 4 ∧ (nField w).val = (p.extractLsb' 0 4).toNat := by
  rw [OpcodeRow.selects, and_F00F, beq_iff_eq]
  change fmtXYN (opField w) 0 0 (nibble (nField w)) = p ↔ opField w = opField p ∧ (nField w).val = (nField p).val
  refine ⟨fun e => ?_, fun ⟨ho, hn⟩ => by rw [ho, Fin.ext hn, hp]⟩
  exact ⟨by rw [← e, opField_fmtXYN], by rw [← e, nField_fmtXYN, nibble_toFin]⟩

theorem selects_F0FF (hp : fmtXKK (opField p) 0 (kkField p) = p) :
    OpcodeRow.selects ⟨p, 0xF0FF#16, make⟩ w = true ↔
      opField w = p.extractLsb' 12 4 ∧ (kkField w).toNat = (p.extractLsb' 0 8).toNat := by
  rw [OpcodeRow.selects, and_F0FF, beq_iff_eq, BitVec.toNat_inj]
  change fmtXKK (opField w) 0 (kkField w) = p ↔ opField w = opField p ∧ kkField w = kkField p
  refine ⟨fun e => ?_, fun ⟨ho, hk⟩ => by rw [ho, hk, hp]⟩
  exact ⟨by rw [← e, opField_fmtXKK], by rw [← e, kkField_fmtXKK]⟩

end

/-! ## The decoder against the map -/

/-- The rows of the map with one major opcode. -/
def rowsOf (op : BitVec 4) : List OpcodeRow := opcodeMap.filter fun r => opField r.pattern == op

/-- Every mask keeps the major opcode, so a row selects words of its own major opcode alone. -/
theorem opField_of_selects {r : OpcodeRow} {w : Word} (hr : r ∈ opcodeMap) (h : r.selects w = true) :
    opField r.pattern = opField w := by
  have hmask : opField r.mask = BitVec.allOnes 4 := (by decide : ∀ r ∈ opcodeMap, opField r.mask = BitVec.allOnes 4) r hr
  rw [← (beq_iff_eq.1 h : w &&& r.mask = r.pattern), opField, BitVec.extractLsb'_and]
  exact (congrArg _ hmask).trans BitVec.and_allOnes

theorem opcodeLookup_eq (w : Word) :
    opcodeLookup w = ((rowsOf (opField w)).find? (·.selects w)).map (·.make w) := by
  rw [opcodeLookup, rowsOf, List.find?_filter]
  congr 1
  refine List.find?_congr fun r hr => ?_
  cases hsel : r.selects w
  · simp
  · simp [opField_of_selects hr hsel]

/-- The map tries its rows in order. -/
theorem lookup_cons (r : OpcodeRow) (rows : List OpcodeRow) (w : Word) :
    ((r :: rows).find? (·.selects w)).map (·.make w) =
      if r.selects w = true then some (r.make w) else (rows.find? (·.selects w)).map (·.make w) := by
  rw [List.find?_cons]
  cases r.selects w <;> rfl

/-- The exact words of R95, read in the field nnn. -/
theorem decode0_eq {w : Word} (ho : opField w = 0x0#4) :
    decode0 w = if (nnnField w).toNat = 0x0E0 then .cls else if (nnnField w).toNat = 0x0EE then .ret
      else .sys (nnnField w) := by
  have hiff : ∀ p : Word, opField p = 0x0#4 → (w = p ↔ (nnnField w).toNat = (nnnField p).toNat) := fun p hp => by
    rw [BitVec.toNat_inj]
    exact ⟨congrArg nnnField, word_eq_of_nnn (ho.trans hp.symm)⟩
  exact if_congr (hiff _ rfl) rfl (if_congr (hiff _ rfl) rfl rfl)

/-- Settles O5: a major opcode's few rows, each read in the field it selects by, are the arms of the decoder for that opcode. -/
theorem decodeFollowsOpcodeMap : Obligations.DecodeFollowsOpcodeMap := by
  intro w
  rw [opcodeLookup_eq]
  rcases opField_cases w with ho | ho | ho | ho | ho | ho | ho | ho | ho | ho | ho | ho | ho | ho | ho | ho
  all_goals
    rw [ho]
    simp (disch := decide) only [rowsOf, opcodeMap, opcodeRowsLow, opcodeRowsHigh, List.cons_append, List.nil_append,
      List.filter_cons_of_pos, List.filter_cons_of_neg, List.filter_nil, lookup_cons, selects_FFFF, selects_F000, selects_F00F,
      selects_F0FF, List.find?_nil, Option.map_none]
  · rw [decode_of_op0 ho, decode0_eq ho]
    split_ifs <;> simp_all [Except.toOption]
  · simp [decode_of_op1 ho, ho, Except.toOption]
  · simp [decode_of_op2 ho, ho, Except.toOption]
  · simp [decode_of_op3 ho, ho, Except.toOption]
  · simp [decode_of_op4 ho, ho, Except.toOption]
  · rw [decode_of_op5 ho]
    split_ifs <;> simp_all [Except.toOption]
  · simp [decode_of_op6 ho, ho, Except.toOption]
  · simp [decode_of_op7 ho, ho, Except.toOption]
  · rw [decode_of_op8 ho, decode8]
    split <;> simp_all [Except.toOption]
  · rw [decode_of_op9 ho]
    split_ifs <;> simp_all [Except.toOption]
  · simp [decode_of_opA ho, ho, Except.toOption]
  · simp [decode_of_opB ho, ho, Except.toOption]
  · simp [decode_of_opC ho, ho, Except.toOption]
  · simp [decode_of_opD ho, ho, Except.toOption]
  · rw [decode_of_opE ho, decodeE]
    split <;> simp_all [Except.toOption]
  · rw [decode_of_opF ho, decodeF]
    split <;> simp_all [Except.toOption]

end Sys2Proof
end

section
/-! The instructions that can raise an error, in the states where they do not (spec/60_exceptions.md R280): what each of them
then answers, said once. -/

namespace Sys2Proof.Machine

variable {s : State} {x y : Reg} {n : Count} {nnn : Addr12}

/-- RET with k + 1 valid entries: the top one goes to pc and stays where it is (R34, R35; log 7). -/
theorem exec_ret_of_sp {k : Fin 16} (h : k.val + 1 = s.sp.val) :
    exec .ret s = .next { s with pc := s.stack[k.val], sp := k.castSucc } := by
  have hk : s.sp.val - 1 = k.val := by omega
  simp only [exec, execRet, State.pop_of_pos s (by omega), State.setPc, hk]
  rfl

theorem exec_ret_sentinel (h0 : s.sp.val = 0) (hp : s.params.underflow = .sentinel) :
    exec .ret s = .next (s.setPc 0x0000#16) := by
  simp only [exec, execRet, State.pop_empty s h0, hp]

theorem exec_call_of_sp {k : Fin 16} (h : k.val = s.sp.val) :
    exec (.call nnn) s =
      .next { s with pc := addrWord nnn, stack := s.stack.set k.val s.pc, sp := k.succ } := by
  simp only [exec, execCall, State.push_of_lt s _ (show s.sp.val < 16 by omega), State.setPc, ← h]
  rfl

theorem exec_ldB_inRange (h : s.i.toNat + 2 ≤ 4095) :
    exec (.ldB x) s = .next { s with mem := s.mem.writeAll s.params s.i.toNat (bcdDigits (s.reg x)) } := by
  have hsize : s.i.toNat + (bcdDigits (s.reg x)).length ≤ Config.memSize := by
    simp only [bcdDigits, List.length_cons, List.length_nil, Config.memSize]
    omega
  simp only [exec, execLdB, State.storeRange_eq, if_pos (Or.inr hsize)]

theorem exec_storeRegs_inRange (h : s.i.toNat + x.val ≤ 4095) :
    exec (.storeRegs x) s =
      .next (State.setI { s with mem := s.mem.writeAll s.params s.i.toNat (s.regsUpTo x) } (s.ldstNextI x)) := by
  have hsize : s.i.toNat + (s.regsUpTo x).length ≤ Config.memSize := by
    simp only [State.regsUpTo_length, Config.memSize]
    omega
  simp only [exec, execStoreRegs, State.storeRange_eq, if_pos (Or.inr hsize)]

theorem exec_loadRegs_inRange (h : s.i.toNat + x.val ≤ 4095) :
    exec (.loadRegs x) s =
      .next ((s.setRegsFrom 0 ((List.range (x.val + 1)).map fun k => s.readByte (s.i.toNat + k))).setI (s.ldstNextI x)) := by
  have hsize : x.val + 1 = 0 ∨ s.i.toNat + (x.val + 1) - 1 ≤ 4095 := .inr h
  simp only [exec, execLoadRegs, s.loadRange_of_inRange hsize]

/-- The sprite DRW reads: n bytes from I up. -/
def State.sprite (s : State) (n : Count) : List Byte := (List.range n.val).map fun k => s.readByte (s.i.toNat + k)

/-- The drawing DRW leaves: the sprite at (V[x], V[y]) over the framebuffer. -/
def State.drawn (s : State) (x y : Reg) (n : Count) : Drawing := s.fb.draw (s.reg x).toNat (s.reg y).toNat (s.sprite n)

theorem exec_drw_inRange (h : n.val = 0 ∨ s.i.toNat + n.val - 1 ≤ 4095) :
    exec (.drw x y n) s =
      .next (State.setReg { s with fb := (s.drawn x y n).1 } 15 (flagByte (s.drawn x y n).2)) :=
  exec_drw_of_loadRange x y (s.loadRange_of_inRange h)

/-- SKP on a key skips if it is pressed, SKNP if it is not. -/
theorem exec_skp_of_key {k : Key} (h : s.keySel x = .key k) : exec (.skp x) s = .next (s.skipIf (s.key k)) := by
  simp only [exec, execSkp, h]

theorem exec_sknp_of_key {k : Key} (h : s.keySel x = .key k) : exec (.sknp x) s = .next (s.skipIf (!s.key k)) := by
  simp only [exec, execSknp, h]

/-- A number that names no key counts as not pressed. -/
theorem exec_skp_of_noKey (h : s.keySel x = .noKey) : exec (.skp x) s = .next (s.skipIf false) := by
  simp only [exec, execSkp, h]
  rfl

theorem exec_sknp_of_noKey (h : s.keySel x = .noKey) : exec (.sknp x) s = .next (s.skipIf true) := by
  simp only [exec, execSknp, h]

/-! ## Where no error is raised -/

/-- RET pops an entry, or returns to 0 under SENTINEL. -/
theorem errorOf_ret_eq_none (h : errorOf .ret s = none) :
    (s.sp.val = 0 ∧ s.params.underflow = .sentinel) ∨ ∃ k : Fin 16, k.val + 1 = s.sp.val := by
  simp only [errorOf, ite_eq_right_iff, reduceCtorEq, imp_false, not_and] at h
  by_cases h0 : s.sp.val = 0
  · refine .inl ⟨h0, ?_⟩
    cases hp : s.params.underflow
    · exact absurd hp (h h0)
    · rfl
  · exact .inr ⟨⟨s.sp.val - 1, by omega⟩, Nat.sub_add_cancel (by omega)⟩

theorem errorOf_call_eq_none (h : errorOf (.call nnn) s = none) : ∃ k : Fin 16, k.val = s.sp.val := by
  simp only [errorOf, ite_eq_right_iff, reduceCtorEq, imp_false] at h
  exact ⟨⟨s.sp.val, by omega⟩, rfl⟩

theorem errorOf_drw_eq_none (h : errorOf (.drw x y n) s = none) : n.val = 0 ∨ s.i.toNat + n.val - 1 ≤ 4095 := by
  simp only [errorOf, ite_eq_right_iff, reduceCtorEq, imp_false] at h
  omega

theorem errorOf_ldB_eq_none (h : errorOf (.ldB x) s = none) : s.i.toNat + 2 ≤ 4095 := by
  simpa only [errorOf, ite_eq_right_iff, reduceCtorEq, imp_false, not_lt] using h

theorem errorOf_storeRegs_eq_none (h : errorOf (.storeRegs x) s = none) : s.i.toNat + x.val ≤ 4095 := by
  simpa only [errorOf, ite_eq_right_iff, reduceCtorEq, imp_false, not_lt] using h

theorem errorOf_loadRegs_eq_none (h : errorOf (.loadRegs x) s = none) : s.i.toNat + x.val ≤ 4095 := by
  simpa only [errorOf, ite_eq_right_iff, reduceCtorEq, imp_false, not_lt] using h

/-- A key number selects a key, or none, unless it is an error. -/
theorem errorOf_skp_eq_none (h : errorOf (.skp x) s = none) : s.keySel x = .noKey ∨ ∃ k, s.keySel x = .key k := by
  simp only [errorOf, ite_eq_right_iff, reduceCtorEq, imp_false] at h
  by_cases hx : 15 < (s.reg x).toNat
  · rw [State.keySel_of_gt s x hx]
    cases hp : s.params.keyRange with
    | fatal => exact absurd ⟨hx, hp⟩ h
    | notPressed => exact .inl rfl
    | lowNibble => exact .inr ⟨_, rfl⟩
  · exact .inr ⟨⟨(s.reg x).toNat, by omega⟩, State.keySel_of_lt s x _ rfl⟩

/-- SKNP has SKP's error condition. -/
theorem errorOf_sknp_eq_none (h : errorOf (.sknp x) s = none) : s.keySel x = .noKey ∨ ∃ k, s.keySel x = .key k :=
  errorOf_skp_eq_none h

end Sys2Proof.Machine
end

section
/-! The frame of every instruction (spec/10_state.md R25, spec/40_engine.md R127): what it writes where it raises no error, from one
frame per kind of write. -/

namespace Sys2Proof.Machine

variable {s t u : State} {es : List Element} {rs : List Reg}

/-! ## Frames of the writes -/

theorem UnchangedExcept.trans (h : UnchangedExcept es s t) (h' : UnchangedExcept es t u) : UnchangedExcept es s u := by
  obtain ⟨hp, hh, he⟩ := h
  obtain ⟨hp', hh', he'⟩ := h'
  refine ⟨hp'.trans hp, hh'.trans hh, fun e hne => ?_⟩
  have h1 := he e hne
  have h2 := he' e hne
  cases e
  case mem | v => exact fun a => (h2 a).trans (h1 a)
  all_goals exact Eq.trans h2 h1

/-- Where the registers may not differ at all, any frame of registers holds. -/
theorem UnchangedExcept.regsExcept (h : UnchangedExcept es s t) (hv : Element.v ∉ es) : RegsExcept rs s t :=
  fun r _ => h.2.2 .v hv r

theorem unchangedExcept_setMem (s : State) (m : Memory) : UnchangedExcept [.mem] s { s with mem := m } :=
  ⟨rfl, rfl, fun e he => by cases e <;> simp_all [Element.Same, State.reg]⟩

theorem unchangedExcept_setDt (s : State) (b : Byte) : UnchangedExcept [.dt] s (s.setDt b) :=
  ⟨rfl, rfl, fun e he => by cases e <;> simp_all [Element.Same]⟩

theorem unchangedExcept_setSt (s : State) (b : Byte) : UnchangedExcept [.st] s (s.setSt b) :=
  ⟨rfl, rfl, fun e he => by cases e <;> simp_all [Element.Same]⟩

theorem unchangedExcept_enterKeyWait (s : State) (x : Reg) : UnchangedExcept [.kwReg, .runState] s (s.enterKeyWait x) :=
  ⟨rfl, rfl, fun e he => by cases e <;> simp_all [Element.Same]⟩

theorem unchangedExcept_popped (s : State) (w : Word) (k : Fin 17) :
    UnchangedExcept [.pc, .sp] s { s with pc := w, sp := k } :=
  ⟨rfl, rfl, fun e he => by cases e <;> simp_all [Element.Same, State.reg, State.readByte]⟩

theorem unchangedExcept_pushed (s : State) (w : Word) (stack : Vector Word 16) (k : Fin 17) :
    UnchangedExcept [.pc, .sp, .stack] s { s with pc := w, stack := stack, sp := k } :=
  ⟨rfl, rfl, fun e he => by cases e <;> simp_all [Element.Same, State.reg, State.readByte]⟩

theorem unchangedExcept_setRegsFrom (s : State) (k : Nat) (bs : List Byte) : UnchangedExcept [.v] s (s.setRegsFrom k bs) := by
  induction bs generalizing s k with
  | nil => exact unchangedExcept_refl s _
  | cons b bs ih => exact (unchangedExcept_setReg s _ b).trans (ih _ _)

/-- DRW's two writes. -/
theorem unchangedExcept_drawn (s : State) (fb : Framebuffer) (f : Byte) :
    UnchangedExcept [.fb, .v] s (State.setReg { s with fb := fb } 15 f) :=
  ((unchangedExcept_setFb s fb).mono (by simp)).trans ((unchangedExcept_setReg _ 15 f).mono (by simp))

/-- LD [I]'s two writes. -/
theorem unchangedExcept_stored (s : State) (m : Memory) (w : Word) :
    UnchangedExcept [.mem, .i] s (State.setI { s with mem := m } w) :=
  ((unchangedExcept_setMem s m).mono (by simp)).trans ((unchangedExcept_setI _ w).mono (by simp))

/-- LD Vx, [I]'s two writes. -/
theorem unchangedExcept_loaded (s : State) (bs : List Byte) (w : Word) :
    UnchangedExcept [.v, .i] s ((s.setRegsFrom 0 bs).setI w) :=
  ((unchangedExcept_setRegsFrom s 0 bs).mono (by simp)).trans ((unchangedExcept_setI _ w).mono (by simp))

/-! ## Frames of the answers -/

/-- The answer is a next state that differs in the elements `es` and the registers `rs` alone; memory outside `es` is the same
data, and not only the same bytes. -/
def Completes (es : List Element) (rs : List Reg) (s : State) (r : Result) : Prop :=
  ∃ t, r = .next t ∧ UnchangedExcept es s t ∧ RegsExcept rs s t ∧ (Element.mem ∉ es → t.mem = s.mem)

theorem completes_setReg (x : Reg) (b : Byte) : Completes [.v] [x] s (.next (s.setReg x b)) :=
  ⟨_, rfl, unchangedExcept_setReg s x b, regsExcept_setReg s x b, fun _ => rfl⟩

theorem completes_setRegThenFlag (x : Reg) (b f : Byte) : Completes [.v] [x, 15] s (.next (s.setRegThenFlag x b f)) :=
  ⟨_, rfl, unchangedExcept_setRegThenFlag s x b f, regsExcept_setRegThenFlag s x b f, fun _ => rfl⟩

/-- An answer that leaves the registers alone. -/
theorem completes_of_unchanged (h : UnchangedExcept es s t) (hv : Element.v ∉ es := by simp [mayWrite])
    (hm : Element.mem ∉ es → t.mem = s.mem := by simp [mayWrite]) : Completes es rs s (.next t) :=
  ⟨t, rfl, h, h.regsExcept hv, hm⟩

theorem regsExcept_loaded (s : State) (x : Reg) (bs : List Byte) (w : Word) (hlen : bs.length = x.val + 1) :
    RegsExcept (destRegs (.loadRegs x)) s ((s.setRegsFrom 0 bs).setI w) := by
  intro r hr
  have hx : ¬ r.val ≤ x.val := fun hle => hr (List.mem_filter.2 ⟨List.mem_finRange r, decide_eq_true hle⟩)
  rw [State.setI_reg, State.setRegsFrom_reg s 0 bs (by omega), dif_neg (by omega)]

/-- Each instruction by the kind of write it ends with; an instruction that may raise an error, by the answer it gives where it
does not. -/
theorem exec_completes {i : Instr} {s : State} (h : errorOf i s = none) :
    Completes (mayWrite i) (destRegs i) s (exec i s) := by
  cases i
  case cls => exact completes_of_unchanged (unchangedExcept_setFb s _)
  case ret =>
    obtain ⟨h0, hp⟩ | ⟨k, hk⟩ := errorOf_ret_eq_none h
    · rw [exec_ret_sentinel h0 hp]
      exact completes_of_unchanged ((unchangedExcept_setPc s _).mono (by simp [mayWrite]))
    · rw [exec_ret_of_sp hk]
      exact completes_of_unchanged (unchangedExcept_popped s _ _)
  case sys => exact completes_of_unchanged (unchangedExcept_refl s _)
  case jp | jpV0 => exact completes_of_unchanged (unchangedExcept_setPc s _)
  case seImm | sneImm | seReg | sneReg => exact completes_of_unchanged (unchangedExcept_skipIf s _)
  case call =>
    obtain ⟨k, hk⟩ := errorOf_call_eq_none h
    rw [exec_call_of_sp hk]
    exact completes_of_unchanged (unchangedExcept_pushed s _ _ _)
  case ldImm x _ | addImm x _ | ldReg x _ | orReg x _ | andReg x _ | xorReg x _ | rnd x _ | ldVxDt x =>
    exact completes_setReg x _
  case addReg x _ | subReg x _ | shr x _ | subn x _ | shl x _ => exact completes_setRegThenFlag x _ _
  case ldI | addI | ldF => exact completes_of_unchanged (unchangedExcept_setI s _)
  case drw =>
    rw [exec_drw_inRange (errorOf_drw_eq_none h)]
    exact ⟨_, rfl, unchangedExcept_drawn s _ _, regsExcept_setReg _ 15 _, fun _ => rfl⟩
  case skp =>
    obtain hno | ⟨k, hk⟩ := errorOf_skp_eq_none h
    · rw [exec_skp_of_noKey hno]; exact completes_of_unchanged (unchangedExcept_skipIf s _)
    · rw [exec_skp_of_key hk]; exact completes_of_unchanged (unchangedExcept_skipIf s _)
  case sknp =>
    obtain hno | ⟨k, hk⟩ := errorOf_sknp_eq_none h
    · rw [exec_sknp_of_noKey hno]; exact completes_of_unchanged (unchangedExcept_skipIf s _)
    · rw [exec_sknp_of_key hk]; exact completes_of_unchanged (unchangedExcept_skipIf s _)
  case ldVxK x => exact completes_of_unchanged (unchangedExcept_enterKeyWait s x)
  case ldDtVx => exact completes_of_unchanged (unchangedExcept_setDt s _)
  case ldStVx => exact completes_of_unchanged (unchangedExcept_setSt s _)
  case ldB =>
    rw [exec_ldB_inRange (errorOf_ldB_eq_none h)]
    exact completes_of_unchanged (unchangedExcept_setMem s _)
  case storeRegs =>
    rw [exec_storeRegs_inRange (errorOf_storeRegs_eq_none h)]
    exact completes_of_unchanged (unchangedExcept_stored s _ _)
  case loadRegs x =>
    rw [exec_loadRegs_inRange (errorOf_loadRegs_eq_none h)]
    exact ⟨_, rfl, unchangedExcept_loaded s _ _, regsExcept_loaded s x _ _ (by simp), by simp⟩

/-- Settles O25: the frame is part of what `Completes` says. -/
theorem instructionsWriteOnlyTheirOwn : Obligations.InstructionsWriteOnlyTheirOwn := by
  intro i s herr
  obtain ⟨t, ht, helems, hregs, -⟩ := exec_completes herr
  exact ⟨t, ht, helems, hregs⟩

end Sys2Proof.Machine
end

section
/-! What follows from the frame and from the one way an error is taken: where the core halts, what becomes of VF, of the
parameters and of the canonical form of memory. -/

namespace Sys2Proof.Machine

variable {i : Instr} {s t : State} {c : ErrCause}

/-- An instruction takes the error its condition names, or completes within its frame. -/
theorem exec_next_cases (h : exec i s = .next t) :
    (∃ c, errorOf i s = some c ∧ t = s.fatal c) ∨
    (errorOf i s = none ∧ UnchangedExcept (mayWrite i) s t ∧ RegsExcept (destRegs i) s t ∧
      (Element.mem ∉ mayWrite i → t.mem = s.mem)) := by
  cases herr : errorOf i s with
  | some c =>
    rw [exec_of_errorOf herr] at h
    cases h
    exact .inl ⟨c, rfl, rfl⟩
  | none =>
    obtain ⟨t', ht', hframe⟩ := exec_completes herr
    rw [ht'] at h
    cases h
    exact .inr ⟨rfl, hframe⟩

/-! ## Errors -/

/-- Fx0A alone writes run_state. -/
theorem runState_mem_mayWrite (h : Element.runState ∈ mayWrite i) : ∃ x, i = .ldVxK x := by
  cases i
  case ldVxK x => exact ⟨x, rfl⟩
  all_goals simp [mayWrite] at h

/-- An instruction that raises no error leaves run_state, but for Fx0A, which enters the key-wait. -/
theorem exec_runState (herr : errorOf i s = none) (h : exec i s = .next t) :
    t.runState = s.runState ∨ ∃ x, i = .ldVxK x ∧ t = s.enterKeyWait x := by
  by_cases hw : Element.runState ∈ mayWrite i
  · obtain ⟨x, rfl⟩ := runState_mem_mayWrite hw
    cases h
    exact .inr ⟨x, rfl, rfl⟩
  · obtain ⟨_, hsome, -⟩ | ⟨-, hframe, -⟩ := exec_next_cases h
    · rw [herr] at hsome; cases hsome
    · exact .inl (hframe.2.2 .runState hw)

/-- Settles O24: an error is the one operation `State.fatal`, and an instruction that completes does not halt the core. -/
theorem fatalErrorsExactlyWhere : Obligations.FatalErrorsExactlyWhere := by
  refine ⟨fun i s c herr => ⟨_, exec_of_errorOf herr, haltedBy_fatal s c⟩, fun i s t herr h hs => ?_⟩
  obtain hrun | ⟨x, -, rfl⟩ := exec_runState herr h
  · rwa [hrun]
  · simp

/-- No instruction's error is a failed load or no error at all. -/
theorem errorOf_cause (h : errorOf i s = some c) : c ≠ .none ∧ c ≠ .outOfSpace := by
  cases i <;> simp only [errorOf, reduceCtorEq] at h
  all_goals
    split at h <;> cases h
    exact ⟨by decide, by decide⟩

/-! ## VF -/

theorem flagByte_cases (b : Bool) : flagByte b = 0x00#8 ∨ flagByte b = 0x01#8 := by
  cases b
  · exact .inl rfl
  · exact .inr rfl

/-- A flag setter that completes leaves a flag in VF. -/
theorem exec_setsFlag (hi : setsFlag i = true) (herr : errorOf i s = none) :
    ∃ t b, exec i s = .next t ∧ t.reg 15 = flagByte b := by
  cases i <;> simp only [setsFlag, Bool.false_eq_true] at hi
  case drw x y n =>
    exact ⟨_, _, exec_drw_inRange (errorOf_drw_eq_none herr), State.setReg_reg_same ..⟩
  all_goals exact ⟨_, _, rfl, State.setRegThenFlag_reg_flag ..⟩

/-- Settles O45: a flag is 0 or 1, and a register outside an instruction's list is in its frame. -/
theorem flagRegisterRule : Obligations.FlagRegisterRule := by
  refine ⟨fun i s hi herr => ?_, fun i s t _ h hd => ?_⟩
  · obtain ⟨t, b, ht, hflag⟩ := exec_setsFlag hi herr
    exact ⟨t, ht, by rw [hflag]; exact flagByte_cases b⟩
  · obtain ⟨c, -, rfl⟩ | ⟨-, -, hregs, -⟩ := exec_next_cases h
    · exact State.fatal_reg s c 15
    · exact hregs 15 hd

/-! ## Parameters, host's side and memory -/

theorem exec_params (h : exec i s = .next t) : t.params = s.params := by
  obtain ⟨c, -, rfl⟩ | ⟨-, hframe, -⟩ := exec_next_cases h
  · rfl
  · exact hframe.1

theorem exec_host (h : exec i s = .next t) : t.host = s.host := by
  obtain ⟨c, -, rfl⟩ | ⟨-, hframe, -⟩ := exec_next_cases h
  · rfl
  · exact hframe.2.1

@[simp] theorem bcdDigits_length (b : Byte) : (bcdDigits b).length = 3 := rfl

/-- LD B and LD [I] alone write memory. -/
theorem mem_mem_mayWrite (h : Element.mem ∈ mayWrite i) : ∃ x, i = .ldB x ∨ i = .storeRegs x := by
  cases i
  case ldB x => exact ⟨x, .inl rfl⟩
  case storeRegs x => exact ⟨x, .inr rfl⟩
  all_goals simp [mayWrite] at h

/-- An instruction within its range check writes within 0..4095, so it keeps the canonical form. -/
theorem exec_keeps_wf (h : exec i s = .next t) (hwf : Memory.wf s.params s.mem) : Memory.wf t.params t.mem := by
  rw [exec_params h]
  obtain ⟨c, -, rfl⟩ | ⟨herr, -, -, hmem⟩ := exec_next_cases h
  · exact hwf
  · by_cases hw : Element.mem ∈ mayWrite i
    · obtain ⟨x, rfl | rfl⟩ := mem_mem_mayWrite hw
      · have hrange := errorOf_ldB_eq_none herr
        rw [exec_ldB_inRange hrange] at h
        cases h
        exact Memory.wf_writeAll hwf _ (by rw [bcdDigits_length, memSize_eq]; omega)
      · have hrange := errorOf_storeRegs_eq_none herr
        rw [exec_storeRegs_inRange hrange] at h
        cases h
        exact Memory.wf_writeAll hwf _ (by rw [State.regsUpTo_length, memSize_eq]; omega)
    · rwa [hmem hw]

end Sys2Proof.Machine
end

section
/-! The invariant (spec/10_state.md R40, spec/20_memory.md R60): every operation of a step keeps it, a reset included. -/

namespace Sys2Proof.Machine

variable {i : Instr} {s s0 t : State}

/-- The invariant speaks of the parameters, memory, run_state and the error record alone. -/
theorem State.Inv.congr (h : s.Inv) (hp : t.params = s.params) (hm : t.mem = s.mem) (hr : t.runState = s.runState)
    (hc : t.errCause = s.errCause) (ha : t.errPc = s.errPc) : t.Inv := by
  obtain ⟨hwf, hrec⟩ := h
  refine ⟨by rwa [hp, hm], ?_⟩
  simpa only [State.ErrorRecordOk, hr, hc, ha] using hrec

/-- A running core has a clear error record (R40). -/
theorem State.ErrorRecordOk.clear (h : s.ErrorRecordOk) (hr : s.runState = .run) :
    s.errCause = .none ∧ s.errPc = 0x0000#16 := by
  simpa only [State.ErrorRecordOk, hr] using h

/-- A fatal error of the core's own leaves an error record that agrees with HALTED. -/
theorem State.Inv.raiseFatal (h : s.Inv) {c : ErrCause} (hc : c ≠ .none ∧ c ≠ .outOfSpace) (a : Word) :
    (s.raiseFatal c a).Inv :=
  ⟨h.1, hc⟩

/-- No instruction that completes writes the error record. -/
theorem exec_keeps_errorRecord (herr : errorOf i s = none) (h : exec i s = .next t) :
    t.errCause = s.errCause ∧ t.errPc = s.errPc := by
  obtain ⟨_, hsome, -⟩ | ⟨-, ⟨-, -, hsame⟩, -⟩ := exec_next_cases h
  · rw [herr] at hsome; cases hsome
  · exact ⟨hsame .errCause (by cases i <;> simp [mayWrite]), hsame .errPc (by cases i <;> simp [mayWrite])⟩

theorem exec_keeps_inv (hs : s.Inv) (hrun : s.runState = .run) (h : exec i s = .next t) : t.Inv := by
  have hwf : Memory.wf t.params t.mem := exec_keeps_wf h hs.1
  refine ⟨hwf, ?_⟩
  cases herr : errorOf i s with
  | some c =>
    rw [exec_of_errorOf herr] at h
    cases h
    exact (hs.raiseFatal (errorOf_cause herr) _).2
  | none =>
    have hclear := hs.2.clear hrun
    rw [← (exec_keeps_errorRecord herr h).1, ← (exec_keeps_errorRecord herr h).2] at hclear
    obtain hr | ⟨x, -, rfl⟩ := exec_runState herr h
    · simpa only [State.ErrorRecordOk, hr, hrun] using hclear
    · exact hclear

theorem runWord_keeps_inv {w : Word} (hs : s.Inv) (hrun : s.runState = .run) (h : runWord w s = .next t) : t.Inv := by
  unfold runWord at h
  split at h
  · exact exec_keeps_inv hs hrun h
  · cases h
    exact hs

theorem State.Inv.endStep (h : s.Inv) : s.endStep.Inv := by
  by_cases hr : s.runState = .halted
  · rwa [State.endStep_halted hr]
  · rw [State.endStep_running hr]
    exact h.congr rfl rfl rfl rfl rfl

/-- The completing poll goes from WAIT_KEY to RUN, both with a clear record. -/
theorem State.Inv.keyWaitPoll (h : s.Inv) (hwait : s.runState = .waitKey) : s.keyWaitPoll.Inv := by
  cases hk : lowestKey s.host.keys with
  | none => rwa [keyWaitPoll_none hk]
  | some k =>
    rw [keyWaitPoll_some hk]
    obtain ⟨hwf, hrec⟩ := h
    have hclear : s.errCause = .none ∧ s.errPc = 0x0000#16 := by simpa only [State.ErrorRecordOk, hwait] using hrec
    exact ⟨hwf, hclear⟩

theorem performStep_keeps_inv (hs : s.Inv) (h : performStep s = .next t) : t.Inv := by
  obtain ⟨-, -, hp⟩ | ⟨w, u, hf, hu, hp⟩ | ⟨hwait, hp⟩ | ⟨-, hp⟩ := performStep_cases s <;> (rw [hp] at h; cases h)
  · exact hs.raiseFatal (by decide) _
  · have hadvanced : (s.setPc (s.pc + 2#16)).Inv := hs.congr rfl rfl rfl rfl rfl
    exact (runWord_keeps_inv hadvanced hf.1 hu).endStep
  · exact hs.keyWaitPoll hwait
  · exact hs

theorem State.Inv.resetWith (h : s.Inv) (image : List Byte) : (s.resetWith image).Inv := by
  by_cases hl : image.length = 0 ∨ 3584 < image.length
  · rw [State.resetWith_invalid s hl]
    exact ⟨h.1, rfl, rfl⟩
  · rw [State.resetWith_valid s (by omega) (by omega)]
    exact ⟨s.load_wf (by omega), rfl, rfl⟩

/-- Settles O19: a step is one of the operations above on a state that differs from the one before in the host's side alone. -/
theorem stepKeepsInvariant : Obligations.StepKeepsInvariant := by
  intro s t hs h
  obtain ⟨s0, hreq, hstep⟩ | ⟨image, rest, -, hreset⟩ := step_cases s
  · have hsampled : s0.Inv := by
      rw [hreq.eq]
      exact hs.congr rfl rfl rfl rfl rfl
    exact performStep_keeps_inv hsampled (hstep ▸ h)
  · rw [hreset] at h
    cases h
    refine State.Inv.resetWith ?_ image
    exact hs.congr rfl rfl rfl rfl rfl

/-- Settles O20: State.reset lists no cell, and its error record is clear. -/
theorem resetMeetsInvariant : Obligations.ResetMeetsInvariant :=
  ⟨Memory.wf_nil _, rfl, rfl⟩

end Sys2Proof.Machine
end

section
/-! The step engine (spec/40_engine.md): what a step request does in each run_state, over the sampled state. -/

namespace Sys2Proof.Machine

variable {s s0 t u : State} {w : Word} {i : Instr}

/-! ## The executing step -/

theorem runWord_of_ok (h : decode s.params.strictDecode w = .ok i) : runWord w s = exec i s := by
  simp only [runWord, h]

theorem runWord_of_error {e : Unassigned} (h : decode s.params.strictDecode w = .error e) : runWord w s = .next s := by
  simp only [runWord, h]

/-- A step that fetches w runs w past the fetch and then ends the step. -/
theorem StepRequested.step_of_fetches (hreq : StepRequested s s0) (hf : Fetches s w) :
    step s = Result.endStep (runWord w (s0.setPc (s.pc + 2#16))) := by
  rw [hreq.step_eq, performStep_fetches (hreq.fetches hf), hreq.pc]

/-- A word that decodes to i runs as i. -/
theorem StepRequested.runWord_eq (hreq : StepRequested s s0) (hd : decode s.params.strictDecode w = .ok i) (pc : Word) :
    runWord w (s0.setPc pc) = exec i (s0.setPc pc) :=
  runWord_of_ok (by rwa [State.setPc_params, hreq.params])

/-- Settles O9: the step is the engine's fetch, decode and dispatch. -/
theorem stepRunsDecodedInstruction : Obligations.StepRunsDecodedInstruction := by
  intro s s0 w i hreq hf hd
  rw [hreq.step_of_fetches hf, hreq.runWord_eq hd]

/-- Settles O14: `endStep` ticks, unless the rule halted the core. -/
theorem tickFollowsTheInstruction : Obligations.TickFollowsTheInstruction := by
  intro s s0 u w hreq hf hu
  refine ⟨u.endStep, by rw [hreq.step_of_fetches hf, hu]; rfl, State.endStep_halted, fun hrun => ?_⟩
  rw [State.endStep_running hrun]
  exact ⟨tickTimer_toNat u.dt, tickTimer_toNat u.st, unchangedExcept_tick u⟩

/-- A word that changes nothing: its step advances pc by 2 and ticks. -/
theorem step_of_noOp (hreq : StepRequested s s0) (hf : Fetches s w)
    (hw : runWord w (s0.setPc (s.pc + 2#16)) = .next (s0.setPc (s.pc + 2#16))) :
    ∃ t, step s = .next t ∧ t.pc = s.pc + 2#16 ∧ t.dt.toNat = s.dt.toNat - 1 ∧ t.st.toNat = s.st.toNat - 1 ∧
      UnchangedExcept [.pc, .dt, .st] s0 t := by
  obtain ⟨t, ht, -, htick⟩ := tickFollowsTheInstruction s s0 _ w hreq hf hw
  have hrun : (s0.setPc (s.pc + 2#16)).runState ≠ .halted := by rw [State.setPc_runState, hreq.runState, hf.1]; decide
  obtain ⟨hdt, hst, hsame⟩ := htick hrun
  rw [State.setPc_dt, hreq.dt] at hdt
  rw [State.setPc_st, hreq.st] at hst
  exact ⟨t, ht, hsame.2.2 .pc (by decide), hdt, hst,
    ((unchangedExcept_setPc s0 _).mono (by simp)).trans (hsame.mono (by simp))⟩

/-- Settles O11: a rejected word runs as nothing at all. -/
theorem unassignedWordRunsAsNoOp : Obligations.UnassignedWordRunsAsNoOp := by
  intro s s0 w e hreq hf hd
  exact step_of_noOp hreq hf (runWord_of_error (by rwa [State.setPc_params, hreq.params]))

/-- Settles O32: the rule of SYS is the identity. -/
theorem sysDoesNothing : Obligations.SysDoesNothing := by
  refine ⟨fun nnn s => rfl, fun s s0 w nnn hreq hf hd => ?_⟩
  exact step_of_noOp hreq hf (hreq.runWord_eq hd _)

/-! ## The fetch past memory, and the stopped core -/

theorem unchangedExcept_raiseFatal (s : State) (c : ErrCause) (a : Word) :
    UnchangedExcept [.runState, .errCause, .errPc] s (s.raiseFatal c a) :=
  ⟨rfl, rfl, fun e he => by cases e <;> simp_all [Element.Same]⟩

/-- Settles O12: the fetch's range check fails before anything is read. -/
theorem fetchPastMemoryHalts : Obligations.FetchPastMemoryHalts := by
  intro s s0 hreq hrun hpc
  have hfault := performStep_fetchFault (hreq.runState.trans hrun) (by rwa [hreq.pc])
  exact ⟨_, hreq.step_eq.trans hfault, rfl, rfl, hreq.pc, unchangedExcept_raiseFatal s0 _ _⟩

/-- Settles O13: in HALTED and LOAD_FAILED the step is the sampling alone. -/
theorem stoppedCoreDoesNothing : Obligations.StoppedCoreDoesNothing := by
  intro s s0 hreq hstop
  rw [hreq.step_eq, performStep_stopped (by rwa [hreq.runState])]

/-- An instruction that ends with pc <- w leaves w in pc, whatever w is, and writes nothing else. -/
theorem exec_writesPc {n : Nat} (h : exec i s = .next (s.setPc w)) (hw : w.toNat = n) :
    ∃ t, exec i s = .next t ∧ t.pc.toNat = n ∧ UnchangedExcept [.pc] s t :=
  ⟨_, h, hw, unchangedExcept_setPc s w⟩

/-- Settles O33: nnn + V0 is below 65536, so it is not reduced; the third clause is the fetch past memory. -/
theorem jumpsSetPc : Obligations.JumpsSetPc := by
  refine ⟨fun nnn s => exec_writesPc rfl (addrWord_toNat nnn), fun nnn s => exec_writesPc rfl ?_, fun t t0 hreq hrun hpc => ?_⟩
  · rw [BitVec.toNat_ofNat]
    have hn := nnn.isLt
    have hv := (s.reg 0).isLt
    omega
  · obtain ⟨u, hu, hhalt, hcause, herrPc, -⟩ := fetchPastMemoryHalts t t0 hreq hrun (by omega)
    exact ⟨u, hu, hhalt, hcause, herrPc⟩

/-! ## The key-wait poll (spec/45_keys_timers.md R260, R267) -/

theorem lowestKey_eq_some_iff (keys : BitVec 16) (k : Key) : lowestKey keys = some k ↔ IsLowestKey keys k := by
  rw [lowestKey, List.find?_eq_some_iff_getElem]
  refine and_congr_right fun _ => ⟨?_, fun hmin => ⟨k.val, by simp, by simp, fun j hj => ?_⟩⟩
  · rintro ⟨n, hn, hnk, hmin⟩ j hj
    rw [List.getElem_finRange] at hnk
    subst hnk
    simpa using hmin j.val hj
  · simpa using hmin ⟨j, by omega⟩ hj

theorem lowestKey_eq_none_iff (keys : BitVec 16) : lowestKey keys = none ↔ keys = 0#16 := by
  refine ⟨fun h => BitVec.eq_of_getLsbD_eq fun k hk => ?_, fun h => h ▸ lowestKey_of_no_key⟩
  rw [lowestKey, List.find?_eq_none] at h
  simpa using h ⟨k, hk⟩ (List.mem_finRange _)

/-- Settles O17: the search goes from key 0 up, so it stops at the least pressed key. -/
theorem lowestKeyIsTheLeastPressed : Obligations.LowestKeyIsTheLeastPressed :=
  fun keys => ⟨lowestKey_eq_some_iff keys, lowestKey_eq_none_iff keys⟩

/-- The completing poll: three writes and no others. -/
theorem keyWaitPoll_of_lowest {k : Key} (h : IsLowestKey s.host.keys k) :
    s.keyWaitPoll.runState = .run ∧ (s.keyWaitPoll.reg s.kwReg).toNat = k.val ∧ RegsExcept [s.kwReg] s s.keyWaitPoll ∧
    s.keyWaitPoll.pc = s.pc + ResumeAdvance.amount s.params.resumeAdvance ∧
    UnchangedExcept [.v, .runState, .pc] s s.keyWaitPoll := by
  rw [keyWaitPoll_some ((lowestKey_eq_some_iff _ _).2 h)]
  refine ⟨rfl, ?_, regsExcept_setReg s s.kwReg _, rfl, rfl, rfl, fun e he => ?_⟩
  · have hreg := State.setReg_reg_same s s.kwReg (BitVec.ofNat 8 k.val)
    have hk : (BitVec.ofNat 8 k.val).toNat = k.val := by rw [BitVec.toNat_ofNat]; omega
    exact (congrArg BitVec.toNat hreg).trans hk
  · cases e <;> simp_all [Element.Same, State.readByte]

/-- Settles O16: the step is the poll of the sampled snapshot. -/
theorem keyWaitPollCommitsLowestKey : Obligations.KeyWaitPollCommitsLowestKey := by
  intro s s0 hreq hwait
  have hstep : step s = .next s0.keyWaitPoll := by
    rw [hreq.step_eq, performStep_waitKey (hreq.runState.trans hwait)]
  refine ⟨fun h0 => by rw [hstep, keyWaitPoll_of_no_key h0], fun k hk => ?_⟩
  obtain ⟨hrun, hreg, hregs, hpc, hsame⟩ := keyWaitPoll_of_lowest hk
  rw [hreq.kwReg] at hreg hregs
  rw [hreq.pc, hreq.params] at hpc
  refine ⟨_, hstep, hrun, hreg, hregs, fun h2 => ?_, fun h0 => ?_, hsame⟩
  · rw [hpc, h2, ResumeAdvance.amount]
  · rw [hpc, h0, ResumeAdvance.amount, BitVec.add_zero]

/-- Settles O58: Fx0A is the one operation `enterKeyWait`. -/
theorem keyWaitEntry : Obligations.KeyWaitEntry :=
  fun x s => ⟨_, rfl, rfl, rfl, unchangedExcept_enterKeyWait s x⟩

/-- The step that fetches LD Vx, K: pc past it, the key-wait entered, the tick. -/
theorem step_ldVxK {x : Reg} (hreq : StepRequested s s0) (hf : Fetches s w)
    (hd : decode s.params.strictDecode w = .ok (.ldVxK x)) :
    step s = .next ((s0.setPc (s.pc + 2#16)).enterKeyWait x).tick := by
  rw [stepRunsDecodedInstruction s s0 w _ hreq hf hd]
  exact congrArg _ (State.endStep_running (by simp))

/-- Settles O59: the first step enters the key-wait and ticks, the second is the poll, which does not. -/
theorem keyWaitTakesTwoSteps : Obligations.KeyWaitTakesTwoSteps := by
  intro s s0 t t0 w x k hreq hf hd hstep hreq' hk
  rw [step_ldVxK hreq hf hd] at hstep
  cases hstep
  obtain ⟨-, hpoll⟩ := keyWaitPollCommitsLowestKey _ _ hreq' rfl
  obtain ⟨u, hu, hrun, hreg, hregs, htwo, hzero, -, -, hsame⟩ := hpoll k hk
  refine ⟨u, hu, hrun, hreg, fun r hr => ?_, fun h2 => ?_, fun h0 => ?_, ?_, ?_⟩
  · rw [hregs r hr, hreq'.reg]
    exact hreq.reg r
  · rw [htwo (by simpa [hreq.params] using h2)]
    simp [BitVec.add_assoc]
  · rw [hzero (by simpa [hreq.params] using h0)]
    simp
  · rw [show u.dt = _ from hsame .dt (by decide), hreq'.dt, ← hreq.dt]
    exact tickTimer_toNat s0.dt
  · rw [show u.st = _ from hsame .st (by decide), hreq'.st, ← hreq.st]
    exact tickTimer_toNat s0.st

/-! ## Timers (spec/45_keys_timers.md R263 to R265) -/

/-- Settles O57: each transfer is one write, and a timer written in RUN is ticked by the same step. -/
theorem timerTransfers : Obligations.TimerTransfers := by
  intro x s
  refine ⟨exec_writesReg (P := (· = s.dt)) rfl rfl, ⟨_, rfl, rfl, unchangedExcept_setDt s _, fun hrun => ?_⟩,
    ⟨_, rfl, rfl, unchangedExcept_setSt s _, fun hrun => ?_⟩⟩
  · rw [State.endStep_running (by simp [hrun])]
    exact tickTimer_toNat (s.reg x)
  · rw [State.endStep_running (by simp [hrun])]
    exact tickTimer_toNat (s.reg x)

/-- No rule but LD DT's writes DT. -/
theorem dt_mem_mayWrite (h : Element.dt ∈ mayWrite i) : ∃ x, i = .ldDtVx x := by
  cases i
  case ldDtVx x => exact ⟨x, rfl⟩
  all_goals simp [mayWrite] at h

theorem runWord_dt (hd : ∀ x, decode s.params.strictDecode w ≠ .ok (.ldDtVx x)) (h : runWord w s = .next t) :
    t.dt = s.dt := by
  cases hw : decode s.params.strictDecode w with
  | error e =>
    rw [runWord_of_error hw] at h
    cases h
    rfl
  | ok i =>
    rw [runWord_of_ok hw] at h
    obtain ⟨c, -, rfl⟩ | ⟨-, hframe, -⟩ := exec_next_cases h
    · rfl
    · refine hframe.2.2 .dt fun hmem => ?_
      obtain ⟨x, rfl⟩ := dt_mem_mayWrite hmem
      exact hd x hw

/-- One executing step other than LD DT's decrements DT. -/
theorem step_dt (hreq : StepRequested s s0) (hf : Fetches s w) (hd : ∀ x, decode s.params.strictDecode w ≠ .ok (.ldDtVx x))
    (h : step s = .next t) (ht : t.runState ≠ .halted) : t.dt.toNat = s.dt.toNat - 1 := by
  obtain ⟨u, hu⟩ := runWord_answers_next w (s0.setPc (s.pc + 2#16))
  obtain ⟨t', ht', hhalted, htick⟩ := tickFollowsTheInstruction s s0 u w hreq hf hu
  rw [ht'] at h
  cases h
  have hrun : u.runState ≠ .halted := fun hhalt => ht (by rw [hhalted hhalt, hhalt])
  have hdt : u.dt = s.dt := by
    rw [runWord_dt (by rwa [State.setPc_params, hreq.params]) hu, State.setPc_dt, hreq.dt]
  rw [(htick hrun).1, hdt]

/-- Settles O23: by induction on the number of steps. -/
theorem delayTimerCountsExecutingSteps : Obligations.DelayTimerCountsExecutingSteps := by
  intro run n
  induction n with
  | zero => exact fun _ => rfl
  | succ n ih =>
    intro hall
    have hn := ih fun k hk => hall k (by omega)
    obtain ⟨⟨s0, hreq⟩, ⟨w, hf, hd⟩, hstep, hrun⟩ := hall n (by omega)
    rw [step_dt hreq hf hd hstep hrun, hn]
    omega

/-! ## run_state, parameters and requests -/

@[simp] theorem State.endStep_runState (s : State) : s.endStep.runState = s.runState := by
  unfold State.endStep
  split <;> rfl

/-- A word halts the core, leaves run_state, or is LD Vx, K. -/
theorem runWord_runState (h : runWord w s = .next t) :
    t.runState = .halted ∨ t.runState = s.runState ∨
    ∃ x, decode s.params.strictDecode w = .ok (.ldVxK x) ∧ t = s.enterKeyWait x := by
  cases hw : decode s.params.strictDecode w with
  | error e =>
    rw [runWord_of_error hw] at h
    cases h
    exact .inr (.inl rfl)
  | ok i =>
    rw [runWord_of_ok hw] at h
    obtain ⟨c, -, rfl⟩ | ⟨herr, -⟩ := exec_next_cases h
    · exact .inl rfl
    · obtain hrun | ⟨x, rfl, hx⟩ := exec_runState herr h
      · exact .inr (.inl hrun)
      · exact .inr (.inr ⟨x, rfl, hx⟩)

/-- The key-wait poll stays in WAIT_KEY or returns to RUN. -/
theorem keyWaitPoll_runState (s : State) : s.keyWaitPoll.runState = s.runState ∨ s.keyWaitPoll.runState = .run := by
  cases hk : lowestKey s.host.keys with
  | none => exact .inl (by rw [keyWaitPoll_none hk])
  | some k => exact .inr (by rw [keyWaitPoll_some hk])

/-- Settles O18: one clause for each case of the step. -/
theorem runStateTransitions : Obligations.RunStateTransitions := by
  intro s s0 t hreq h
  rw [hreq.step_eq] at h
  have hs := hreq.runState
  obtain ⟨hrun, -, hp⟩ | ⟨w, u, hf, hu, hp⟩ | ⟨hwait, hp⟩ | ⟨hstop, hp⟩ := performStep_cases s0 <;> (rw [hp] at h; cases h)
  · simp [← hs, hrun]
  · have hw : w = s.wordAt s.pc.toNat := by rw [hf.2.2, hreq.wordAt, hreq.pc]
    have hrun : s0.runState = .run := hf.1
    obtain hhalt | hsame | ⟨x, hd, rfl⟩ := runWord_runState hu
    · simp [← hs, hrun, hhalt]
    · simp [← hs, hrun, hsame]
    · rw [State.setPc_params, hreq.params, hw] at hd
      have hkw : (State.endStep ((s0.setPc (s0.pc + 2#16)).enterKeyWait x)).kwReg = x := by
        rw [State.endStep_running (by simp)]
        rfl
      simp [← hs, hrun, hd, hkw]
  · obtain hp | hp := keyWaitPoll_runState s0 <;> simp [← hs, hwait, hp]
  · rcases hstop with hstop | hstop <;> simp [← hs, hstop]

theorem runWord_params_host (h : runWord w s = .next t) : t.params = s.params ∧ t.host = s.host := by
  unfold runWord at h
  split at h
  · exact ⟨exec_params h, exec_host h⟩
  · cases h
    exact ⟨rfl, rfl⟩

theorem State.endStep_params_host (s : State) : s.endStep.params = s.params ∧ s.endStep.host = s.host := by
  unfold State.endStep
  split <;> exact ⟨rfl, rfl⟩

theorem keyWaitPoll_params_host (s : State) : s.keyWaitPoll.params = s.params ∧ s.keyWaitPoll.host = s.host := by
  cases hk : lowestKey s.host.keys with
  | none => rw [keyWaitPoll_none hk]; exact ⟨rfl, rfl⟩
  | some k => rw [keyWaitPoll_some hk]; exact ⟨rfl, rfl⟩

theorem performStep_params_host (h : performStep s = .next t) : t.params = s.params ∧ t.host = s.host := by
  obtain ⟨-, -, hp⟩ | ⟨w, u, -, hu, hp⟩ | ⟨-, hp⟩ | ⟨-, hp⟩ := performStep_cases s <;> (rw [hp] at h; cases h)
  · exact ⟨rfl, rfl⟩
  · have hend := u.endStep_params_host
    have hword := runWord_params_host hu
    exact ⟨hend.1.trans hword.1, hend.2.trans hword.2⟩
  · exact keyWaitPoll_params_host s
  · exact ⟨rfl, rfl⟩

theorem State.resetWith_params_host (s : State) (image : List Byte) :
    (s.resetWith image).params = s.params ∧ (s.resetWith image).host = s.host := by
  unfold State.resetWith
  split <;> exact ⟨rfl, rfl⟩

/-- Settles O21: past the request taken, nothing writes the parameters or the host's side. -/
theorem stepKeepsParamsAndTakesOneRequest : Obligations.StepKeepsParamsAndTakesOneRequest := by
  intro s t h
  obtain ⟨s0, hreq, hstep⟩ | ⟨image, rest, hrest, hreset⟩ := step_cases s
  · obtain ⟨hparams, hhost⟩ := performStep_params_host (hstep ▸ h)
    exact ⟨hparams.trans hreq.params, by rw [hhost, hreq.requests]⟩
  · rw [hreset] at h
    cases h
    obtain ⟨hparams, hhost⟩ := State.resetWith_params_host _ image
    exact ⟨hparams, by rw [hhost, hrest]; rfl⟩

end Sys2Proof.Machine
end

section
/-! The host's placing of a word (log 5): the state made ready to fetch, and the two bytes at its pc. -/

namespace Sys2Proof.Machine

variable {s : State} {w : Word}

theorem tableWord_16 (w : Nat) : tableWord 16 w = BitVec.ofNat 16 w := by
  apply BitVec.eq_of_toNat_eq
  simp [tableWord]

@[simp] theorem bytesOfWord_length (w : Word) : (bytesOfWord w).length = 2 := rfl

/-- A state made ready to fetch has both bytes at pc within memory. -/
theorem State.readyToFetch_pc (s : State) : s.readyToFetch.pc.toNat + 1 ≤ 4095 := by
  unfold State.readyToFetch
  split
  · exact (by decide : (BitVec.ofNat 16 Config.progBase).toNat + 1 ≤ 4095)
  · next hpc => exact Nat.not_lt.1 hpc

/-- Once the resets before it are dropped, a step request is next. -/
theorem State.placeAtPc_requested (s : State) (w : Word) : ∃ s0, StepRequested (s.placeAtPc w) s0 := by
  cases hreq : (s.placeAtPc w).host.requests with
  | nil => exact ⟨_, stepRequested_free hreq⟩
  | cons r rest =>
    cases r with
    | step keys rnd => exact ⟨_, stepRequested_listed hreq⟩
    | reset image =>
      have hhead := List.head?_dropWhile_not Request.isReset s.host.requests
      rw [show s.host.requests.dropWhile Request.isReset = .reset image :: rest from hreq] at hhead
      simp [Request.isReset] at hhead

/-- A step request served next is not behind a reset. -/
theorem StepRequested.dropWhile_isReset {s0 : State} (h : StepRequested s s0) :
    s.host.requests.dropWhile Request.isReset = s.host.requests := by
  obtain ⟨keys, rnd, hs, hnext, -⟩ := h
  simp only [HostSide.nextRequest] at hnext
  split at hnext
  · next r rest hr =>
    cases hnext
    rw [hr]
    rfl
  · next hr => rw [hr]; rfl

/-- A state that already fetches, and is asked to step, is ready as it is. -/
theorem State.readyToFetch_eq_self {v : Word} {s0 : State} (hf : Fetches s v) (hreq : StepRequested s s0) :
    s.readyToFetch = s := by
  obtain ⟨hrun, hpc, -⟩ := hf
  unfold State.readyToFetch
  rw [if_neg (Nat.not_lt.2 hpc), hreq.dropWhile_isReset, ← hrun]

/-- Every byte of memory after a word is placed. -/
theorem State.placeAtPc_readByte (hwf : Memory.wf s.params s.mem) (a : Nat) :
    (s.placeAtPc w).readByte a =
      if h : s.readyToFetch.pc.toNat ≤ a ∧ a - s.readyToFetch.pc.toNat < (bytesOfWord w).length
      then (bytesOfWord w)[a - s.readyToFetch.pc.toNat]'h.2 else s.readByte a := by
  have hpc := s.readyToFetch_pc
  exact Memory.read_writeAll hwf (bytesOfWord w) (by rw [bytesOfWord_length, memSize_eq]; omega) a

theorem State.placeAtPc_fetches (hwf : Memory.wf s.params s.mem) : Fetches (s.placeAtPc w) w := by
  refine ⟨rfl, s.readyToFetch_pc, ?_⟩
  have hhi : (s.placeAtPc w).readByte s.readyToFetch.pc.toNat = w.extractLsb' 8 8 := by
    rw [State.placeAtPc_readByte hwf, dif_pos (by simp)]
    simp [bytesOfWord]
  have hlo : (s.placeAtPc w).readByte (s.readyToFetch.pc.toNat + 1) = w.extractLsb' 0 8 := by
    rw [State.placeAtPc_readByte hwf, dif_pos (by simp)]
    simp [bytesOfWord]
  exact (wordOfBytes_bytesOfWord w).symm.trans (by rw [← hhi, ← hlo]; rfl)

/-- Settles O10: the placed bytes are read back as the word, and a state that fetches already is changed at those bytes alone. -/
theorem placedWordIsFetched : Obligations.PlacedWordIsFetched := by
  intro s w hwf
  rw [State.withFetchWord, tableWord_16]
  refine ⟨State.placeAtPc_fetches hwf, s.placeAtPc_requested _, fun v hf hreq => ?_⟩
  obtain ⟨s0, hreq⟩ := hreq
  have hready := State.readyToFetch_eq_self hf hreq
  refine ⟨?_, fun b hb => ?_⟩
  · unfold State.placeAtPc
    rw [hready]
    exact unchangedExcept_setMem s _
  · rw [State.placeAtPc_readByte hwf, hready, dif_neg (by rw [bytesOfWord_length]; omega)]

end Sys2Proof.Machine
end

section
/-! The inputs of a step (spec/40_engine.md R134, spec/42_register_alu.md R195, spec/45_keys_timers.md R260): an instruction
commutes with a change of the host's side, but for those that read it. -/

namespace Sys2Proof.Machine

/-- The host's side replaced. -/
def State.setHost (s : State) (h : HostSide) : State := { s with host := h }

variable {i : Instr} {s t : State} {h : HostSide}

/-- No error condition reads the host's side. -/
theorem errorOf_setHost (i : Instr) (s : State) (h : HostSide) : errorOf i (s.setHost h) = errorOf i s := by
  cases i <;> rfl

theorem State.skipIf_setHost (s : State) (h : HostSide) (c : Bool) :
    (s.setHost h).skipIf c = (s.skipIf c).setHost h := by
  cases c <;> rfl

theorem State.setRegsFrom_setHost (s : State) (h : HostSide) (k : Nat) (bs : List Byte) :
    (s.setHost h).setRegsFrom k bs = (s.setRegsFrom k bs).setHost h := by
  induction bs generalizing s k with
  | nil => rfl
  | cons b bs ih => exact ih (s.setReg _ b) (k + 1)

/-- Of the host's side, RND reads the random byte, SKP and SKNP read the keys, and no other instruction reads anything. -/
theorem exec_setHost (hrnd : (∃ x kk, i = .rnd x kk) → h.rnd = s.host.rnd)
    (hkeys : (∃ x, i = .skp x ∨ i = .sknp x) → h.keys = s.host.keys) (he : exec i s = .next t) :
    exec i (s.setHost h) = .next (t.setHost h) := by
  cases herr : errorOf i s with
  | some c =>
    rw [exec_of_errorOf herr] at he
    cases he
    exact exec_of_errorOf ((errorOf_setHost i s h).trans herr)
  | none =>
    cases i
    case ret =>
      obtain ⟨h0, hp⟩ | ⟨k, hk⟩ := errorOf_ret_eq_none herr
      · rw [exec_ret_sentinel h0 hp] at he
        cases he
        exact exec_ret_sentinel (s := s.setHost h) h0 hp
      · rw [exec_ret_of_sp hk] at he
        cases he
        exact exec_ret_of_sp (s := s.setHost h) hk
    case call =>
      obtain ⟨k, hk⟩ := errorOf_call_eq_none herr
      rw [exec_call_of_sp hk] at he
      cases he
      exact exec_call_of_sp (s := s.setHost h) hk
    case drw =>
      have hrange := errorOf_drw_eq_none herr
      rw [exec_drw_inRange hrange] at he
      cases he
      exact exec_drw_inRange (s := s.setHost h) hrange
    case rnd x kk =>
      cases he
      simp only [exec, execRnd]
      rw [show (s.setHost h).host.rnd = s.host.rnd from hrnd ⟨x, kk, rfl⟩]
      rfl
    case skp x =>
      obtain hno | ⟨k, hk⟩ := errorOf_skp_eq_none herr
      · rw [exec_skp_of_noKey hno] at he
        cases he
        exact exec_skp_of_noKey (s := s.setHost h) hno
      · rw [exec_skp_of_key hk] at he
        cases he
        have hkey : (s.setHost h).key k = s.key k := congrArg (·.getLsbD k.val) (hkeys ⟨x, .inl rfl⟩)
        rw [exec_skp_of_key (s := s.setHost h) hk, hkey, State.skipIf_setHost]
    case sknp x =>
      obtain hno | ⟨k, hk⟩ := errorOf_sknp_eq_none herr
      · rw [exec_sknp_of_noKey hno] at he
        cases he
        exact exec_sknp_of_noKey (s := s.setHost h) hno
      · rw [exec_sknp_of_key hk] at he
        cases he
        have hkey : (s.setHost h).key k = s.key k := congrArg (·.getLsbD k.val) (hkeys ⟨x, .inr rfl⟩)
        rw [exec_sknp_of_key (s := s.setHost h) hk, hkey, State.skipIf_setHost]
    case ldB =>
      have hrange := errorOf_ldB_eq_none herr
      rw [exec_ldB_inRange hrange] at he
      cases he
      exact exec_ldB_inRange (s := s.setHost h) hrange
    case storeRegs =>
      have hrange := errorOf_storeRegs_eq_none herr
      rw [exec_storeRegs_inRange hrange] at he
      cases he
      exact exec_storeRegs_inRange (s := s.setHost h) hrange
    case loadRegs x =>
      have hrange := errorOf_loadRegs_eq_none herr
      rw [exec_loadRegs_inRange hrange] at he
      cases he
      rw [exec_loadRegs_inRange (s := s.setHost h) hrange, State.setRegsFrom_setHost]
      rfl
    case seImm | sneImm | seReg | sneReg =>
      cases he
      exact congrArg _ (State.skipIf_setHost s h _)
    all_goals
      cases he
      rfl

/-- Settles O22: the host's side with the other byte, or the other snapshot, in it. -/
theorem inputsReadOnlyByTheirInstructions : Obligations.InputsReadOnlyByTheirInstructions := by
  refine ⟨fun i s t b hi he => ?_, fun i s t k hi he => ?_⟩
  · rw [exec_host he]
    exact exec_setHost (h := { s.host with rnd := b }) (fun ⟨x, kk, hx⟩ => absurd hx (hi x kk)) (fun _ => rfl) he
  · rw [exec_host he]
    refine exec_setHost (h := { s.host with keys := k }) (fun _ => rfl) (fun ⟨x, hx⟩ => ?_) he
    exact hx.elim (absurd · (hi x).1) (absurd · (hi x).2)

end Sys2Proof.Machine
end

section
/-! Control flow (spec/41_control_flow.md): the call stack's two instructions and the register skips. -/

namespace Sys2Proof.Machine

/-- An instruction whose error condition holds halts the core with that cause. -/
theorem exec_halts {i : Instr} {s : State} {c : ErrCause} (h : errorOf i s = some c) :
    ∃ t, exec i s = .next t ∧ HaltedBy c s t :=
  ⟨_, exec_of_errorOf h, haltedBy_fatal s c⟩

/-- Settles O31: one clause for each way RET can find the stack. -/
theorem returnPopsTheStack : Obligations.ReturnPopsTheStack := by
  refine ⟨fun s k hk => ?_, fun s h0 hp => ?_, fun s h0 hp => ?_⟩
  · exact ⟨_, exec_ret_of_sp hk, rfl, rfl, unchangedExcept_popped s _ _⟩
  · exact exec_halts (by simp only [errorOf, h0, hp, and_self, if_true])
  · exact ⟨_, exec_ret_sentinel h0 hp, rfl, unchangedExcept_setPc s _⟩

/-- Settles O34: the push below 16 entries, and the error on a full stack. -/
theorem callPushesReturnAddress : Obligations.CallPushesReturnAddress := by
  refine ⟨fun nnn s k hk => ?_, fun nnn s h16 => exec_halts (by simp only [errorOf, h16, if_true])⟩
  refine ⟨_, exec_call_of_sp hk, addrWord_toNat nnn, ?_, Vector.getElem_set_self .., fun j hj => ?_,
    unchangedExcept_pushed s _ _ _⟩
  · rw [← hk]
    rfl
  · exact Vector.getElem_set_ne k.isLt j.isLt fun e => hj (Fin.ext e.symm)

/-- Settles O37: RET pops the entry CALL wrote, and CALL wrote no entry below it. -/
theorem callThenReturnRoundTrip : Obligations.CallThenReturnRoundTrip := by
  intro nnn s t u hsp hcall husp hustack
  have hk : (⟨s.sp.val, hsp⟩ : Fin 16).val = s.sp.val := rfl
  rw [exec_call_of_sp hk] at hcall
  cases hcall
  have hret : s.sp.val + 1 = u.sp.val := by rw [husp]; rfl
  refine ⟨_, exec_ret_of_sp (k := ⟨s.sp.val, hsp⟩) hret, ?_, rfl, fun j hj => ?_⟩
  · exact (hustack ⟨s.sp.val, hsp⟩ (Nat.lt_succ_self _)).trans (Vector.getElem_set_self ..)
  · exact (hustack j (Nat.lt_succ_of_lt hj)).trans (Vector.getElem_set_ne hsp j.isLt (Nat.ne_of_gt hj))

/-- Settles O36: SE and SNE skip on the Boolean tests `==` and `!=` of V[x] and V[y]. -/
theorem registerSkips : Obligations.RegisterSkips := by
  intro x y s
  exact ⟨exec_skips rfl beq_iff_eq, exec_skips rfl bne_iff_ne⟩

end Sys2Proof.Machine
end

section
/-! The rest of the ALU (spec/42_register_alu.md R183 to R191): the numbers behind `diffByte`, `notBorrow`, the shifts and their
flags, and the obligations by the rules for a register write and for a result with its flag. -/

namespace Sys2Proof.Machine

/-- An instruction that ends with a register write, the byte known bit by bit. -/
theorem exec_writesBits {i : Instr} {s : State} {x : Reg} {v : Byte} {f : Nat → Bool} (h : exec i s = .next (s.setReg x v))
    (hf : ∀ b < 8, v.getLsbD b = f b) :
    ∃ t, exec i s = .next t ∧ (∀ b < 8, (t.reg x).getLsbD b = f b) ∧ RegsExcept [x] s t ∧ UnchangedExcept [.v] s t :=
  exec_writesReg (P := fun u => ∀ b < 8, u.getLsbD b = f b) h hf

/-- Settles O39: each of the three ends with one register write. -/
theorem bitwiseResults : Obligations.BitwiseResults := by
  intro x y s
  exact ⟨exec_writesBits rfl fun _ _ => BitVec.getLsbD_or, exec_writesBits rfl fun _ _ => BitVec.getLsbD_and,
    exec_writesBits rfl fun _ _ => BitVec.getLsbD_xor⟩

/-- Settles O43: RND ends with one register write. -/
theorem randomByteIsMasked : Obligations.RandomByteIsMasked := by
  intro x kk s
  exact exec_writesBits rfl fun _ _ => BitVec.getLsbD_and

theorem diffByte_toNat (a b : Byte) : (diffByte a b).toNat = (a.toNat + 256 - b.toNat) % 256 := by
  have ha := a.isLt
  have hb := b.isLt
  rw [diffByte, BitVec.toNat_ofInt]
  omega

theorem notBorrow_iff_gt {p : Params} (h : p.subEqFlag = .zero) (a b : Byte) :
    notBorrow p a b = true ↔ a.toNat > b.toNat := by
  simp only [notBorrow, h, decide_eq_true_iff, gt_iff_lt]

theorem notBorrow_iff_ge {p : Params} (h : p.subEqFlag = .one) (a b : Byte) :
    notBorrow p a b = true ↔ a.toNat ≥ b.toNat := by
  simp only [notBorrow, h, decide_eq_true_iff, ge_iff_le]

/-- An instruction that ends with a − b and its not-borrow flag. -/
theorem exec_subtracts {i : Instr} {s : State} {x : Reg} {a b : Byte}
    (h : exec i s = .next (s.setRegThenFlag x (diffByte a b) (flagByte (notBorrow s.params a b)))) :
    ∃ t, exec i s = .next t ∧ (x ≠ 15 → (t.reg x).toNat = (a.toNat + 256 - b.toNat) % 256) ∧
      (s.params.subEqFlag = .zero → (t.reg 15).toNat = if a.toNat > b.toNat then 1 else 0) ∧
      (s.params.subEqFlag = .one → (t.reg 15).toNat = if a.toNat ≥ b.toNat then 1 else 0) ∧
      RegsExcept [x, 15] s t ∧ UnchangedExcept [.v] s t := by
  obtain ⟨t, ht, hres, hflag, hframe⟩ :=
    exec_writesRegThenFlag (P := (· = diffByte a b)) (Q := (· = flagByte (notBorrow s.params a b))) h rfl rfl
  refine ⟨t, ht, fun hx => ?_, fun h0 => ?_, fun h1 => ?_, hframe⟩
  · rw [hres hx, diffByte_toNat]
  · rw [hflag, flagByte_toNat (notBorrow_iff_gt h0 a b)]
  · rw [hflag, flagByte_toNat (notBorrow_iff_ge h1 a b)]

/-- Settles O41: SUB subtracts V[y] from V[x], SUBN V[x] from V[y]. -/
theorem subtractionsSetNotBorrow : Obligations.SubtractionsSetNotBorrow :=
  fun _ _ _ => ⟨exec_subtracts rfl, exec_subtracts rfl⟩

theorem shrByte_toNat (b : Byte) : (shrByte b).toNat = b.toNat / 2 := by
  have hb := b.isLt
  rw [shrByte, BitVec.toNat_ofNat]
  omega

theorem shlByte_toNat (b : Byte) : (shlByte b).toNat = b.toNat * 2 % 256 :=
  BitVec.toNat_ofNat ..

theorem lsb_flag_toNat (b : Byte) : (flagByte (lsb b)).toNat = b.toNat % 2 := by
  have hb : lsb b = true ↔ b.toNat % 2 = 1 := by simp [lsb, BitVec.getLsbD, Nat.testBit_zero]
  rw [flagByte_toNat hb]
  split <;> omega

theorem msb_flag_toNat (b : Byte) : (flagByte (msb b)).toNat = b.toNat / 128 := by
  have hlt := b.isLt
  have hb : msb b = true ↔ b.toNat / 128 % 2 = 1 := by simp [msb, BitVec.getLsbD, Nat.testBit_eq_decide_div_mod_eq]
  rw [flagByte_toNat hb]
  split <;> omega

/-- Settles O42: the operand SHIFT_SOURCE names is b, and each shift ends with its result and the bit shifted out. -/
theorem shiftsSetTheBitShiftedOut : Obligations.ShiftsSetTheBitShiftedOut := by
  intro x y s b hvx hvy
  have hb : s.shiftOperand x y = b := by
    cases hsrc : s.params.shiftSource
    · simp only [State.shiftOperand, hsrc, hvx hsrc]
    · simp only [State.shiftOperand, hsrc, hvy hsrc]
  subst hb
  constructor
  · exact exec_writesRegThenFlag (P := fun r => r.toNat = _) (Q := fun f => f.toNat = _) rfl (shrByte_toNat _) (lsb_flag_toNat _)
  · exact exec_writesRegThenFlag (P := fun r => r.toNat = _) (Q := fun f => f.toNat = _) rfl (shlByte_toNat _) (msb_flag_toNat _)

end Sys2Proof.Machine
end

section
/-! The key skips (spec/45_keys_timers.md R261, R262, R268). -/

namespace Sys2Proof.Machine

/-- The key a number above 15 selects under LOW_NIBBLE. -/
theorem State.keySel_lowNibble {s : State} {x : Reg} {k : Key} (h : 15 < (s.reg x).toNat)
    (hp : s.params.keyRange = .lowNibble) (hk : k.val = (s.reg x).toNat % 16) : s.keySel x = .key k := by
  rw [State.keySel_of_gt s x h, hp]
  exact congrArg KeySel.key (Fin.ext hk.symm)

/-- Settles O56: the key number selects a key, or none, or is an error. -/
theorem keySkips : Obligations.KeySkips := by
  intro x s
  refine ⟨fun k hk => ?_, fun hgt hp => ?_, fun hgt hp => ?_⟩
  · have hsel : s.keySel x = .key k := by
      obtain hk | ⟨hgt, hp, hk⟩ := hk
      · exact State.keySel_of_lt s x k hk
      · exact State.keySel_lowNibble hgt hp hk
    refine ⟨exec_skips (exec_skp_of_key hsel) Iff.rfl, ?_⟩
    obtain ⟨t, ht, hpc, hframe⟩ := exec_skips (P := ¬ s.key k = true) (exec_sknp_of_key hsel) (by simp)
    exact ⟨t, ht, by rw [hpc, ite_not]; rfl, hframe⟩
  · have hsel : s.keySel x = .noKey := by rw [State.keySel_of_gt s x hgt, hp]
    exact ⟨exec_skp_of_noKey hsel, _, exec_sknp_of_noKey hsel, rfl, unchangedExcept_skipIf s true⟩
  · have herr : 15 < (s.reg x).toNat ∧ s.params.keyRange = .fatal := ⟨hgt, hp⟩
    exact ⟨exec_halts (if_pos herr), exec_halts (if_pos herr)⟩

end Sys2Proof.Machine
end

section
/-! Canonical memories (spec/20_memory.md R60; log 10): in the canonical form what an address reads as decides whether it is
listed, so equal contents are equal data. -/

namespace Sys2Proof.Machine

variable {p : Params} {m m' : Memory}

theorem Memory.lookup_of_mem (h : Memory.wf p m) {a : Nat} {b : Byte} (hc : (a, b) ∈ m) : m.lookup a = some b := by
  induction m with
  | nil => cases hc
  | cons c m ih =>
    rcases List.mem_cons.1 hc with rfl | hc
    · simp [Memory.lookup]
    · have hlt : c.1 < a := Memory.head_lt h hc
      simp only [Memory.lookup]
      rw [if_neg (Nat.ne_of_lt hlt)]
      exact ih (Memory.wf_tail h) hc

/-- A cell is listed exactly where its address reads as its byte and not as an unlisted one would. -/
theorem Memory.mem_iff_read (h : Memory.wf p m) (a : Nat) (b : Byte) :
    (a, b) ∈ m ↔ m.read p a = b ∧ b ≠ blankByte p a := by
  constructor
  · intro hc
    exact ⟨by rw [Memory.read, Memory.lookup_of_mem h hc]; rfl, (h.2 _ hc).2⟩
  · rintro ⟨hread, hblank⟩
    cases hl : m.lookup a with
    | none => exact absurd (hread.symm.trans (by rw [Memory.read, hl]; rfl)) hblank
    | some b' =>
      have hb : b' = b := by rw [← hread, Memory.read, hl]; rfl
      exact Memory.mem_of_lookup (hb ▸ hl)

/-- Settles O7: the two list the same cells, in the same strict order. -/
theorem canonicalMemoriesAreEqual : Obligations.CanonicalMemoriesAreEqual := by
  intro p m m' h h' hread
  have hirrefl : Std.Irrefl fun c d : Host.Cell => c.1 < d.1 := ⟨fun c => lt_irrefl c.1⟩
  refine h.1.eq_of_mem_iff h'.1 fun c => ?_
  rw [Memory.mem_iff_read h c.1 c.2, Memory.mem_iff_read h' c.1 c.2, hread]

end Sys2Proof.Machine
end

section
/-! Reset (spec/70_reset_and_hazards.md R310 to R313, spec/10_state.md R44): what unlisted memory reads as, and the obligations about
a reset and about State.reset. -/

namespace Sys2Proof.Machine

theorem blankByte_font (p : Params) (k : Nat) (hk : k < 80) : blankByte p (p.fontBase.val + k) = p.fontTable[k] := by
  have hin : p.fontBase.val ≤ p.fontBase.val + k ∧ p.fontBase.val + k - p.fontBase.val < 80 := by omega
  rw [blankByte, dif_pos hin]
  simp only [Nat.add_sub_cancel_left]

theorem blankByte_outside (p : Params) {a : Nat} (h : a < p.fontBase.val ∨ p.fontBase.val + 80 ≤ a) :
    blankByte p a = 0x00#8 :=
  dif_neg (by omega)

/-- A register file of zeros. -/
theorem reg_of_v_zero {s : State} (h : s.v = Vector.replicate 16 0x00#8) (r : Reg) : s.reg r = 0x00#8 := by
  simp [State.reg, h]

/-- The font lies below the program, so a loaded image leaves it. -/
theorem State.load_readByte_font (s : State) {image : List Byte} (h2 : image.length ≤ 3584) (k : Nat) (hk : k < 80) :
    (s.load image).readByte (s.params.fontBase.val + k) = s.params.fontTable[k] := by
  have hbase := s.params.fontBase.isLt
  rw [State.load_readByte_outside s h2 (.inl (by omega)), blankByte_font s.params k hk]

/-- Settles O26: a valid image is loaded, over memory that lists nothing. -/
theorem resetLoadsTheImage : Obligations.ResetLoadsTheImage := by
  intro s image h1 h2
  refine ⟨s.load image, State.resetWith_valid s h1 h2, State.load_readByte_image s h2,
    fun k => State.load_readByte_font s h2 k.val k.isLt, fun a _ himage hfont => ?_, reg_of_v_zero rfl, rfl, rfl,
    fun k => Vector.getElem_replicate .., rfl, rfl, rfl, Framebuffer.clear_pixel, rfl, rfl, rfl, rfl, rfl, rfl⟩
  rw [State.load_readByte_outside s h2 himage, blankByte_outside s.params hfont]

/-- Settles O27: an invalid image is `LoadFail()`. -/
theorem failedLoadIsReported : Obligations.FailedLoadIsReported := by
  intro s image h
  rw [State.resetWith_invalid s h]
  exact ⟨rfl, rfl, rfl, rfl⟩

/-- Settles O28: a load reads the parameters and the host's side of the state before it, and nothing else. -/
theorem resetForgetsTheStateBefore : Obligations.ResetForgetsTheStateBefore := by
  refine ⟨fun s image rest h => by simp only [step, serve, HostSide.nextRequest, h], fun s t image h1 h2 hp hh => ?_⟩
  rw [State.resetWith_valid s h1 h2, State.resetWith_valid t h1 h2, State.load, State.load, hp, hh]

/-- Settles O29: State.reset lists no cell, so it reads as the font and zeros; the rest by evaluation. -/
theorem resetStateHasTheResetValues : Obligations.ResetStateHasTheResetValues := by
  refine ⟨fun k => blankByte_font defaultParams k.val k.isLt, fun a _ ha => blankByte_outside defaultParams ha,
    reg_of_v_zero rfl, rfl, rfl, fun k => Vector.getElem_replicate .., rfl, rfl, rfl, Framebuffer.clear_pixel, rfl, rfl, rfl, rfl,
    rfl, rfl, rfl, rfl, rfl, rfl, rfl, rfl, rfl, rfl⟩

/-- Settles O30: a code for each run_state and each cause. -/
theorem outputsShowStatusAndErrors : Obligations.OutputsShowStatusAndErrors := by
  intro s
  refine ⟨?_, ?_, rfl, rfl, rfl, fun _ => rfl⟩
  · unfold State.statusOut
    cases s.runState <;> rfl
  · unfold State.errCauseOut
    cases s.errCause <;> rfl

end Sys2Proof.Machine
end

section
/-! The address register and memory access (spec/43_address_memory.md R212 to R215): the numbers behind `glyph`, `bcdDigits` and
`ldstNextI`, and the obligations by the answers in range and the one error. -/

namespace Sys2Proof.Machine

variable {s : State} {x : Reg}

/-! ## LD F -/

theorem State.glyph_full (h : s.params.fontIndex = .full) : s.glyph x = (s.reg x).toNat := by
  simp only [State.glyph, h]

theorem State.glyph_lowNibble (h : s.params.fontIndex = .lowNibble) : s.glyph x = (s.reg x).toNat % 16 := by
  simp only [State.glyph, h]

theorem State.glyph_lt (s : State) (x : Reg) : s.glyph x < 256 := by
  have hlt := (s.reg x).isLt
  cases h : s.params.fontIndex
  · rw [State.glyph_full h]; omega
  · rw [State.glyph_lowNibble h]; omega

/-- A digit is its own glyph, under either FONT_INDEX. -/
theorem State.glyph_of_digit (h : (s.reg x).toNat < 16) : s.glyph x = (s.reg x).toNat := by
  cases hp : s.params.fontIndex
  · rw [State.glyph_full hp]
  · rw [State.glyph_lowNibble hp, Nat.mod_eq_of_lt h]

/-- LD F's address is below 65536, so it is not reduced. -/
theorem exec_ldF (s : State) (x : Reg) :
    ∃ t, exec (.ldF x) s = .next t ∧ t.i.toNat = s.params.fontBase.val + 5 * s.glyph x ∧ UnchangedExcept [.i] s t := by
  refine exec_writesI rfl ?_
  have hglyph := s.glyph_lt x
  have hbase := s.params.fontBase.isLt
  rw [BitVec.toNat_ofNat]
  omega

/-- Settles O47: the glyph's number by FONT_INDEX. -/
theorem fontGlyphAddress : Obligations.FontGlyphAddress := by
  intro x s
  obtain ⟨t, ht, hi, hframe⟩ := exec_ldF s x
  exact ⟨t, ht, fun hp => by rw [hi, State.glyph_full hp], fun hp => by rw [hi, State.glyph_lowNibble hp], hframe⟩

/-- Settles O51: the glyph's five bytes lie in the font, which the loaded image leaves. -/
theorem fontGlyphsReadBack : Obligations.FontGlyphsReadBack := by
  intro s u image x g h1 h2 hmem hparams hreg
  obtain ⟨t, ht, hi, hframe⟩ := exec_ldF u x
  refine ⟨t, ht, fun k => ?_⟩
  rw [State.resetWith_valid s h1 h2] at hmem
  have haddr : t.i.toNat + k.val = s.params.fontBase.val + (5 * g.val + k.val) := by
    rw [hi, State.glyph_of_digit (by omega), hreg, hparams]
    omega
  have hload : u.readByte (t.i.toNat + k.val) = (s.load image).readByte (t.i.toNat + k.val) :=
    State.readByte_congr hmem hparams _
  rw [hframe.2.2 .mem (by decide), hload, haddr, State.load_readByte_font s h2 _ (by omega)]

/-! ## LD B and LD [I] -/

/-- A byte after a run of bytes is stored within memory. -/
theorem stored_readByte (hwf : Memory.wf s.params s.mem) {a : Nat} {bs : List Byte} (hr : a + bs.length ≤ 4096) (b : Nat) :
    State.readByte { s with mem := s.mem.writeAll s.params a bs } b =
      if h : a ≤ b ∧ b - a < bs.length then bs[b - a]'h.2 else s.readByte b :=
  Memory.read_writeAll hwf bs hr b

theorem stored_readByte_inside (hwf : Memory.wf s.params s.mem) {a : Nat} {bs : List Byte} (hr : a + bs.length ≤ 4096) (k : Nat)
    (hk : k < bs.length) : State.readByte { s with mem := s.mem.writeAll s.params a bs } (a + k) = bs[k] := by
  rw [stored_readByte hwf hr, dif_pos (by omega)]
  simp only [Nat.add_sub_cancel_left]

theorem stored_bytesOutside (hwf : Memory.wf s.params s.mem) {a : Nat} {bs : List Byte} (hr : a + bs.length ≤ 4096) :
    BytesOutside a bs.length s { s with mem := s.mem.writeAll s.params a bs } := by
  intro b hb
  rw [stored_readByte hwf hr, dif_neg (by omega)]

/-- Settles O48: the three digits are stored in order, or the range check fails. -/
theorem bcdStoresTheDigits : Obligations.BcdStoresTheDigits := by
  intro x s hwf
  refine ⟨fun hrange => ?_, fun hpast => exec_halts (if_pos hpast)⟩
  have hr : s.i.toNat + (bcdDigits (s.reg x)).length ≤ 4096 := by rw [bcdDigits_length]; omega
  have hlt := (s.reg x).isLt
  refine ⟨_, exec_ldB_inRange hrange, ?_, ?_, ?_, stored_bytesOutside hwf hr, unchangedExcept_setMem s _⟩
  · have h0 := stored_readByte_inside hwf hr 0 (by simp)
    rw [Nat.add_zero] at h0
    rw [h0]
    simp only [bcdDigits, List.getElem_cons_zero, BitVec.toNat_ofNat]
    omega
  · rw [stored_readByte_inside hwf hr 1 (by simp)]
    simp only [bcdDigits, List.getElem_cons_succ, List.getElem_cons_zero, BitVec.toNat_ofNat]
    omega
  · rw [stored_readByte_inside hwf hr 2 (by simp)]
    simp only [bcdDigits, List.getElem_cons_succ, List.getElem_cons_zero, BitVec.toNat_ofNat]
    omega

/-- I after LD [I] and LD Vx, [I], by LDST_I_MODE. -/
theorem State.ldstNextI_cases (s : State) (x : Reg) :
    (s.params.ldstIMode = .none → s.ldstNextI x = s.i) ∧
    (s.params.ldstIMode = .plusX → (s.ldstNextI x).toNat = (s.i.toNat + x.val) % 65536) ∧
    (s.params.ldstIMode = .plusX1 → (s.ldstNextI x).toNat = (s.i.toNat + x.val + 1) % 65536) := by
  refine ⟨fun h => ?_, fun h => ?_, fun h => ?_⟩
  · simp only [State.ldstNextI, h]
  · simp only [State.ldstNextI, h, BitVec.toNat_ofNat]
  · simp only [State.ldstNextI, h, BitVec.toNat_ofNat]

/-- Settles O49: the registers are stored in order, or the range check fails. -/
theorem storeRegistersAtI : Obligations.StoreRegistersAtI := by
  intro x s hwf
  refine ⟨fun hrange => ?_, fun hpast => exec_halts (if_pos hpast)⟩
  have hr : s.i.toNat + (s.regsUpTo x).length ≤ 4096 := by rw [State.regsUpTo_length]; omega
  obtain ⟨hnone, hplusX, hplusX1⟩ := s.ldstNextI_cases x
  refine ⟨_, exec_storeRegs_inRange hrange, fun r hle => ?_, ?_, hnone, hplusX, hplusX1, unchangedExcept_stored s _ _⟩
  · have hlt : r.val < (s.regsUpTo x).length := by rw [State.regsUpTo_length]; exact Nat.lt_succ_of_le hle
    rw [State.setI_readByte, stored_readByte_inside hwf hr r.val hlt, State.regsUpTo_getElem]
  · have hout := stored_bytesOutside hwf hr
    rw [State.regsUpTo_length] at hout
    exact hout

/-- Settles O50: the bytes are loaded in order, or the range check fails. -/
theorem loadRegistersFromI : Obligations.LoadRegistersFromI := by
  intro x s
  refine ⟨fun hrange => ?_, fun hpast => exec_halts (if_pos hpast)⟩
  obtain ⟨hnone, hplusX, hplusX1⟩ := s.ldstNextI_cases x
  refine ⟨_, exec_loadRegs_inRange hrange, fun r => ?_, hnone, hplusX, hplusX1, unchangedExcept_loaded s _ _⟩
  rw [State.setI_reg, State.setRegsFrom_reg s 0 _ (by simp)]
  by_cases hle : r ≤ x
  · have hlt : r.val < x.val + 1 := Nat.lt_succ_of_le hle
    rw [if_pos hle, dif_pos ⟨Nat.zero_le _, by simpa using hlt⟩]
    simp
  · have hge : ¬ r.val < x.val + 1 := fun hlt => hle (Nat.le_of_lt_succ hlt)
    rw [if_neg hle, dif_neg (by simpa using hge)]

end Sys2Proof.Machine
end

section
/-! The framebuffer (spec/10_state.md R37, spec/44_display.md R242 to R246): the packed view pixel by pixel, and DRW as the flipping of
the pixels of its sprite. -/

namespace Sys2Proof.Machine

/-- Settles O53: byte 8r + c div 8 is bits 63 − 8(c div 8) down of row r. -/
theorem packedByteLayout : Obligations.PackedByteLayout := by
  intro s r c k hk
  have hrow : k.val / 8 = r.val := by omega
  have hbit : 8 * (7 - k.val % 8) + (7 - c.val % 8) = 63 - c.val := by omega
  have hlt : 7 - c.val % 8 < 8 := by omega
  simp only [State.fbData, Framebuffer.packedByte, Framebuffer.pixel, BitVec.getLsbD_extractLsb', hlt, decide_true, Bool.true_and,
    hrow, hbit]

/-! ## Drawing -/

variable {s t u : State} {x y : Reg} {n : Count}

@[simp] theorem State.sprite_length (s : State) (n : Count) : (s.sprite n).length = n.val := by
  simp [State.sprite]

/-- The pixels of the sprite in memory are those the drawing reaches. -/
theorem drawn_iff_spriteHits (r : Fin 32) (c : Fin 64) :
    Drawn s x y n r c ↔ Drawing.SpriteHits (s.reg x).toNat (s.reg y).toNat (s.sprite n) r c := by
  constructor
  · rintro ⟨k, j, hk, hj, hr, hc, hbit⟩
    exact ⟨k, j, by rwa [State.sprite_length], hj, hr, hc, by simpa [State.sprite] using hbit⟩
  · rintro ⟨k, j, hk, hj, hr, hc, hbit⟩
    exact ⟨k, j, by rwa [State.sprite_length] at hk, hj, hr, hc, by simpa [State.sprite] using hbit⟩

/-- All that DRW's drawing does, in the pixels of its sprite. -/
theorem State.drawn_flips (s : State) (x y : Reg) (n : Count) :
    Drawing.Flips (s.fb, false) (s.drawn x y n) (Drawn s x y n) := by
  have hpixels : Drawn s x y n = Drawing.SpriteHits (s.reg x).toNat (s.reg y).toNat (s.sprite n) :=
    funext fun r => funext fun c => propext (drawn_iff_spriteHits r c)
  rw [hpixels]
  exact Framebuffer.draw_flips _ _ _ _ (by rw [State.sprite_length]; omega)

/-- The collision flag: some pixel of the sprite was 1. -/
theorem State.drawn_collides (s : State) (x y : Reg) (n : Count) :
    (s.drawn x y n).2 = true ↔ ∃ r c, Drawn s x y n r c ∧ s.fb.pixel r c = true := by
  obtain ⟨-, -, hcollide⟩ := s.drawn_flips x y n
  simpa using hcollide

theorem flagByte_eq_one_iff (b : Bool) : flagByte b = 0x01#8 ↔ b = true := by
  cases b <;> decide

theorem flagByte_eq_zero_iff (b : Bool) : flagByte b = 0x00#8 ↔ b = false := by
  cases b <;> decide

/-- Settles O54: the pixels by `drawn_flips`, VF by `drawn_collides`. -/
theorem drawFlipsTheSpritesPixels : Obligations.DrawFlipsTheSpritesPixels := by
  intro x y n s
  refine ⟨fun hrange => ?_, fun h1 hpast => exec_halts (if_pos ⟨h1, hpast⟩)⟩
  obtain ⟨hset, hrest, -⟩ := s.drawn_flips x y n
  refine ⟨_, exec_drw_inRange hrange, hset, hrest, fun hsome => ?_, fun hnone => ?_, regsExcept_setReg _ 15 _,
    unchangedExcept_drawn s _ _⟩
  · rw [State.setReg_reg_same, flagByte_eq_one_iff, State.drawn_collides]
    exact hsome
  · rw [State.setReg_reg_same, flagByte_eq_zero_iff, ← Bool.not_eq_true, State.drawn_collides]
    rintro ⟨r, c, hd, hp⟩
    rw [hnone r c hd] at hp
    cases hp

/-! ## Drawing twice -/

/-- A pixel goes from 0 to 1 exactly if it is flipped and 1 afterwards. -/
theorem Drawing.Flips.turnsOn_iff {d d' : Drawing} {S : Fin 32 → Fin 64 → Prop} (h : Drawing.Flips d d' S) (r : Fin 32)
    (c : Fin 64) : d.1.pixel r c = false ∧ d'.1.pixel r c = true ↔ S r c ∧ d'.1.pixel r c = true := by
  obtain ⟨hset, hrest, -⟩ := h
  by_cases hs : S r c
  · simp [hs, hset r c hs]
  · simp [hs, hrest r c hs]

/-- Flipping the same pixels twice restores the framebuffer. -/
theorem Drawing.Flips.involutive {d d' e e' : Drawing} {S : Fin 32 → Fin 64 → Prop} (h : Drawing.Flips d d' S)
    (h' : Drawing.Flips e e' S) (he : e.1 = d'.1) : e'.1 = d.1 := by
  obtain ⟨hset, hrest, -⟩ := h
  obtain ⟨hset', hrest', -⟩ := h'
  refine Framebuffer.ext_pixel fun r c => ?_
  by_cases hs : S r c
  · rw [hset' r c hs, he, hset r c hs, Bool.not_not]
  · rw [hrest' r c hs, he, hrest r c hs]

/-- The same coordinates, I and sprite bytes give the same pixels. -/
theorem drawn_congr (hx : u.reg x = s.reg x) (hy : u.reg y = s.reg y) (hi : u.i = s.i)
    (hb : ∀ k < n.val, u.readByte (s.i.toNat + k) = s.readByte (s.i.toNat + k)) : Drawn u x y n = Drawn s x y n := by
  funext r c
  simp only [Drawn, hx, hy, hi, eq_iff_iff]
  refine exists_congr fun k => exists_congr fun j => and_congr_right fun hk => ?_
  rw [hb k hk]

/-- Settles O55: the second draw flips the same pixels back, and collides where the first draw turned one on. -/
theorem drawTwiceRestores : Obligations.DrawTwiceRestores := by
  intro x y n s t u hrange ht hfb hx hy hi hb
  rw [exec_drw_inRange hrange] at ht
  cases ht
  have hfirst := s.drawn_flips x y n
  have hpixels := drawn_congr hx hy hi hb
  have hsecond := u.drawn_flips x y n
  rw [hpixels] at hsecond
  have hcollide : (u.drawn x y n).2 = true ↔
      ∃ r c, s.fb.pixel r c = false ∧ (s.drawn x y n).1.pixel r c = true := by
    rw [State.drawn_collides, hpixels, hfb]
    exact exists_congr fun r => exists_congr fun c => (hfirst.turnsOn_iff r c).symm
  refine ⟨_, exec_drw_inRange (by rwa [hi]), hfirst.involutive hsecond hfb, ?_, ?_⟩
  · rw [State.setReg_reg_same, flagByte_eq_one_iff]
    exact hcollide
  · rw [State.setReg_reg_same, flagByte_eq_zero_iff, ← Bool.not_eq_true, hcollide]
    simp only [not_exists, not_and, Bool.not_eq_true]
    rfl

end Sys2Proof.Machine
end
